-- ==== Sys2Proof/Word.lean ====
section
/-!
DEFINITION. The two widths of the core (R2 of spec/00_scope.md): a byte, the addressable unit and the opcode
width, and a 16-bit word, a register pair and an address. Arithmetic on either wraps (R12), which is what
`BitVec` addition and subtraction do.
-/

namespace Sys2Proof

/-- One memory location, one register half, one opcode byte. -/
abbrev Byte := BitVec 8

/-- One register pair, one address. -/
abbrev Word := BitVec 16

end Sys2Proof
end

