-- ==== Sys2Proof/Config.lean ====
section
/-!
DEFINITION. The parameters of the core (R3 of spec/00_scope.md) and the free values.

The five dispatch and cost tables are "consumed not produced" by the core (R110): an operation is a total,
deterministic function (R111) of what R112 lets it read, and its result is what R112 lets it write. The types
`View` and `Effect` are that contract, so an entry outside R113 (one that touches `cyc`, `dacc` or `cacc`) cannot
be written. The five tables together are a `Tables`, which STEP takes as an argument (`Machine.stepWith`, R3). The
entries that no part of the spec defines are, in the tables that the host's machine runs under, `opaque` constants:
nothing can be proved of them but what holds for every table.
-/

namespace Sys2Proof

/-- What a dispatched operation may read (R112): the register pairs, `pc` already past the opcode (R114), `ime`,
`halt`, and memory, through `MemRead` only. Not `cyc`, `dacc`, `cacc` (R113), and not `bt`, which is always false
when a primary operation starts (R88) and has no reader in an extended one (D27). -/
structure View where
  af   : Word
  bc   : Word
  de   : Word
  hl   : Word
  sp   : Word
  pc   : Word
  ime  : Bool
  halt : Bool
  /-- `MemRead(a, 1)`. -/
  read : Word → Byte

/-- What a dispatched operation may leave (R112): the register pairs, `ime`, `halt`, and the bytes it writes
through `MemWrite`, in order. A primary operation also leaves `bt`, which stands beside this record. -/
structure Effect where
  af     : Word
  bc     : Word
  de     : Word
  hl     : Word
  sp     : Word
  pc     : Word
  ime    : Bool
  halt   : Bool
  /-- The `MemWrite`s, first one first. -/
  writes : List (Word × Byte)
  deriving DecidableEq, Repr, Inhabited

/-- The five tables that the external collaborator supplies (R3, R110), an entry for every byte: an ARGUMENT of the
core, not state. The types are R111, R112, R113 and R115; `KeepsFlags` in Machine/Tables.lean is R116. -/
structure Tables where
  /-- `PrimOp[b]`: the effect, and whether `bt` is set. -/
  primOp     : Byte → View → Effect × Bool
  /-- `BaseCost[b]`. -/
  baseCost   : Byte → Nat
  /-- `BranchCost[b]`. -/
  branchCost : Byte → Nat
  /-- `ExtOp[x]`. -/
  extOp      : Byte → View → Effect
  /-- `ExtCost[x]`. -/
  extCost    : Byte → Nat

/-- The reserved escape value `ESC` (R65). PRESUMED: the spec's decision D1, from general knowledge of the
family; log 1 (unsafe). -/
def Config.esc : Byte := 0xCB#8

/-- The value of `ime` at power-on, `RESET_IME` (R3, R32). DESIGN CHOICE: open, false is what D4 recommends;
log 8 (unsafe). -/
def Config.resetIme : Bool := false

/-- What a byte of memory that nothing has listed reads as (R33, RESET_MEM). DESIGN CHOICE: the spec gives no
power-on contents; log 11 (unsafe). -/
def Config.unlisted : Byte := 0x00#8

/-- `PrimOp` (R110) of the host's machine, used at the bytes that the fixture table does not define: the effect, and
whether `bt` is set. FREE
(U1, U9, U10; log 3, safe). -/
opaque Config.primOp : Byte → View → Effect × Bool

/-- `ExtOp` (R110), likewise. FREE (U1, U10; log 3, safe). -/
opaque Config.extOp : Byte → View → Effect

/-- `BaseCost` (R110, R115), likewise. FREE (U10; log 4, safe). -/
opaque Config.baseCost : Byte → Nat

/-- `BranchCost` (R110, R115), likewise. FREE (U10; log 4, safe). -/
opaque Config.branchCost : Byte → Nat

/-- `ExtCost` (R110, R115), likewise. FREE (U10; log 4, safe). -/
opaque Config.extCost : Byte → Nat

end Sys2Proof
end

