-- ==== Sys2Proof/Machine/Operands.lean ====
section
/-!
DEFINITION. The halves of a register pair (R11), and the operand forms of the dispatched operations
(spec/95_test_vectors.md section 3): an operation finds its operand bytes itself, at `pc` (R114). The core decodes
no operand (R64).
-/

namespace Sys2Proof.Machine

/-- `hi(rp) = rp[15:8]` (R11). -/
def hi (w : Word) : Byte := w.extractLsb' 8 8

/-- `lo(rp) = rp[7:0]` (R11). -/
def lo (w : Word) : Byte := w.extractLsb' 0 8

/-- A pair from its high and low half. -/
def pair (h l : Byte) : Word := h ++ l

/-- `hi(rp) <- v`: the other half stays (R11). -/
def setHi (w : Word) (v : Byte) : Word := pair v (lo w)

/-- `lo(rp) <- v`: the other half stays (R11), and all eight bits are stored (R13). -/
def setLo (w : Word) (v : Byte) : Word := pair (hi w) v

/-- `sext_16` of an 8-bit displacement. -/
def sext16 (e : Byte) : Word := e.signExtend 16

/-- The operand byte that an operation's `imm()` reads: the byte at `pc`. -/
def imm (v : View) : Byte := v.read v.pc

/-- `pc` after `imm()`, modulo 65536 (R114). -/
def afterImm (v : View) : Word := v.pc + 1#16

/-- The address that `LDH (n),A` stores to: `0xFF00 + n`. -/
def highPage (n : Byte) : Word := 0xFF00#16 + n.setWidth 16

/-- An operation that changes nothing: the start of every effect. -/
def unchanged (v : View) : Effect where
  af     := v.af
  bc     := v.bc
  de     := v.de
  hl     := v.hl
  sp     := v.sp
  pc     := v.pc
  ime    := v.ime
  halt   := v.halt
  writes := []

end Sys2Proof.Machine
end

