-- ==== Sys2Proof/Machine/Flags.lean ====
section
/-!
DEFINITION. The flags view `lo(af)` (R13) and the flag computations of the fixture table (spec/95_test_vectors.md
section 3). The bit numbers are R14's reading, decision D22 (PRESUMED; log 18). The core itself sets and
reads no arithmetic flag (R13, R34).
-/

namespace Sys2Proof.Machine

/-- The zero flag of a flags byte, bit 7 (R14). -/
def zeroFlag (f : Byte) : Bool := f.getLsbD 7

/-- The subtract flag, bit 6 (R14). -/
def subtractFlag (f : Byte) : Bool := f.getLsbD 6

/-- The half-carry flag, bit 5 (R14). -/
def halfCarryFlag (f : Byte) : Bool := f.getLsbD 5

/-- The carry flag, bit 4 (R14). -/
def carryFlag (f : Byte) : Bool := f.getLsbD 4

/-- One flag as a byte: its bit if it is set. -/
def flagBit (b : Bool) (bit : Byte) : Byte := if b then bit else 0x00#8

/-- A flags byte from its four flags; bits 3 to 0 are zero (R13). -/
def packFlags (z n h c : Bool) : Byte :=
  flagBit z 0x80#8 ||| flagBit n 0x40#8 ||| flagBit h 0x20#8 ||| flagBit c 0x10#8

/-- `af[3:0] = 0`, the flags invariant (R13, R116). -/
def flagsClear (af : Word) : Bool := af &&& 0x000F#16 == 0x0000#16

/-- The accumulator after `DEC A`, modulo 256. -/
def decResult (a : Byte) : Byte := a - 1#8

/-- The flags after `DEC A`: zero of the result, subtract set, half-carry when the low nibble of `A` is 0, carry
kept. -/
def decFlags (a f : Byte) : Byte :=
  packFlags (decResult a == 0x00#8) true (a &&& 0x0F#8 == 0x00#8) (carryFlag f)

/-- The accumulator after `SWAP A`: the two nibbles exchanged. -/
def swapResult (a : Byte) : Byte := a.extractLsb' 0 4 ++ a.extractLsb' 4 4

/-- The flags after `SWAP A`: zero of the result, all others clear. -/
def swapFlags (a : Byte) : Byte := packFlags (swapResult a == 0x00#8) false false false

end Sys2Proof.Machine
end

