-- ==== Sys2Proof/Syntax.lean ====
section
/-!
DEFINITION. The instructions: one constructor for each row of spec/opcode_table.json. The core tells two classes
of instruction apart (R60, R61) and has five commands without an encoding (R72); the other eleven rows are the
entries of the fixture table T0 (spec/95_test_vectors.md, section 3).
-/

namespace Sys2Proof

/-- The five interrupt kinds (R66). The set is closed (D5). -/
inductive Kind where
  | vblank
  | lcdstat
  | timer
  | serial
  | joypad
  deriving DecidableEq, Repr

/-- One constructor per row of the opcode table. -/
inductive Instr where
  /-- `OP_PRIMARY b`: the one-byte instruction whose opcode byte is `b` (R88). -/
  | opPrimary (b : Byte)
  /-- `OP_EXTENDED x`: the two-byte instruction `ESC, x` (R87). -/
  | opExtended (x : Byte)
  /-- `STEP`: the core's single entry point (R80, R92). -/
  | step
  /-- `REQ_INT(k)` (R130). -/
  | reqInt (k : Kind)
  /-- `PENDING()` (R132). -/
  | pending
  /-- `SERVICE(k)` (R140). -/
  | service (k : Kind)
  /-- `ADVANCE(c)` (R150). -/
  | advance (c : Nat)
  /-- T0: `NOP`. -/
  | nop
  /-- T0: `HALT`. -/
  | halt
  /-- T0: `EI`. -/
  | ei
  /-- T0: `DI`. -/
  | di
  /-- T0: `LD A,n`. -/
  | ldAN (n : Byte)
  /-- T0: `LDH (n),A`. -/
  | ldhNA (n : Byte)
  /-- T0: `DEC A`. -/
  | decA
  /-- T0: `JR NZ,e`. -/
  | jrNzE (e : Byte)
  /-- T0: `JR e`. -/
  | jrE (e : Byte)
  /-- T0: `RETI`. -/
  | reti
  /-- T0: `SWAP A`, the one extended entry. -/
  | swapA
  deriving DecidableEq, Repr

/-- The ten primary entries of the fixture table T0. -/
inductive Fixture where
  | nop
  | halt
  | ei
  | di
  | ldAN
  | ldhNA
  | decA
  | jrNzE
  | jrE
  | reti
  deriving DecidableEq, Repr

end Sys2Proof
end

