-- ==== Sys2Proof/Decode.lean ====
section
/-!
DEFINITION. Decoding (spec/30_encoding.md R60, R63; fixture bytes from spec/95_test_vectors.md section 3) and the
encoder. Byte 0 alone tells the format (R63): `ESC` is followed by the index into the extended table, anything
else is an index into the primary table. No byte value is illegal (R68): decoding stops only where the list of bytes ends
too soon.

A fixture row is an instance of its class, so one word could be read two ways; the decoder gives the narrower row
(log 16). An operand byte, which the operation reads itself (R114), is the byte that follows.
-/

namespace Sys2Proof

/-- Why a list of bytes holds no instruction. Safe: a STEP always has the two bytes at `pc` and never meets one
of these. -/
inductive DecodeError where
  /-- There is no first byte. -/
  | noBytes
  /-- `ESC` stands last: the second byte of R60's format P2 is missing. -/
  | noSecondByte
  /-- The operand byte of a fixture row is missing. -/
  | noOperand
  deriving DecidableEq, Repr

/-- The opcode byte of each primary entry of T0. -/
def Fixture.byte : Fixture → Byte
  | .nop   => 0x00#8
  | .halt  => 0x76#8
  | .ei    => 0xFB#8
  | .di    => 0xF3#8
  | .ldAN  => 0x3E#8
  | .ldhNA => 0xE0#8
  | .decA  => 0x3D#8
  | .jrNzE => 0x20#8
  | .jrE   => 0x18#8
  | .reti  => 0xD9#8

/-- The primary entries of T0, in the table's order. -/
def Fixture.all : List Fixture :=
  [.nop, .halt, .ei, .di, .ldAN, .ldhNA, .decA, .jrNzE, .jrE, .reti]

/-- The entry of T0 at an opcode byte, if T0 defines that byte. -/
def Fixture.at? (b : Byte) : Option Fixture :=
  Fixture.all.find? (fun r => r.byte == b)

/-- The second byte of `SWAP A`, the one entry of T0 in the extended table. -/
def swapByte : Byte := 0x37#8

/-- Give the byte after the opcode to a row that has one operand. -/
def withOperand (f : Byte → Instr) : List Byte → Except DecodeError (Instr × List Byte)
  | []        => .error .noOperand
  | n :: rest => .ok (f n, rest)

/-- Format P1 (R60): the opcode byte has been read and is not `ESC`. -/
def decodePrimary (b : Byte) (rest : List Byte) : Except DecodeError (Instr × List Byte) :=
  match Fixture.at? b with
  | none        => .ok (.opPrimary b, rest)
  | some .nop   => .ok (.nop, rest)
  | some .halt  => .ok (.halt, rest)
  | some .ei    => .ok (.ei, rest)
  | some .di    => .ok (.di, rest)
  | some .ldAN  => withOperand .ldAN rest
  | some .ldhNA => withOperand .ldhNA rest
  | some .decA  => .ok (.decA, rest)
  | some .jrNzE => withOperand .jrNzE rest
  | some .jrE   => withOperand .jrE rest
  | some .reti  => .ok (.reti, rest)

/-- Format P2 (R60): `ESC` has been read. A second `ESC` is no escape (R63): `ESC, ESC` has index `ESC`. -/
def decodeExtended : List Byte → Except DecodeError (Instr × List Byte)
  | []        => .error .noSecondByte
  | x :: rest => .ok (if x = swapByte then .swapA else .opExtended x, rest)

/-- Read one instruction from the front of a list of bytes, lowest address first (R43); the rest of the list is
what the next instruction is read from. -/
def decode : List Byte → Except DecodeError (Instr × List Byte)
  | []        => .error .noBytes
  | b :: rest => if b = Config.esc then decodeExtended rest else decodePrimary b rest

/-- The bytes of an instruction, lowest address first; none for a command, which has no encoding (R72). -/
def encode : Instr → Option (List Byte)
  | .opPrimary b  => some [b]
  | .opExtended x => some [Config.esc, x]
  | .step         => none
  | .reqInt _     => none
  | .pending      => none
  | .service _    => none
  | .advance _    => none
  | .nop          => some [Fixture.nop.byte]
  | .halt         => some [Fixture.halt.byte]
  | .ei           => some [Fixture.ei.byte]
  | .di           => some [Fixture.di.byte]
  | .ldAN n       => some [Fixture.ldAN.byte, n]
  | .ldhNA n      => some [Fixture.ldhNA.byte, n]
  | .decA         => some [Fixture.decA.byte]
  | .jrNzE e      => some [Fixture.jrNzE.byte, e]
  | .jrE e        => some [Fixture.jrE.byte, e]
  | .reti         => some [Fixture.reti.byte]
  | .swapA        => some [Config.esc, swapByte]

/-- The two bytes, lowest address first, of an instruction whose bits are `w` in the numbering of
spec/opcode_table.json: byte 0 is bits 7..0 and byte 1 is bits 15..8, every bit from `nbits` on being 0. The row SWAP_A alone is
numbered with byte 0 high (its note: "match/mask here are over byte 0 (high) then byte 1 (low)"); its word 0xCB37
is laid out as the spec's text has it, `0xCB` first (log 16). -/
def tableBytes (nbits w : Nat) : List Byte :=
  let bits := w % 2 ^ nbits
  if bits = 0xCB37 then [Config.esc, swapByte]
  else [BitVec.ofNat 8 bits, BitVec.ofNat 8 (bits / 256)]

/-- What the decoder reads from a word of the opcode table. -/
def decodeTableWord (nbits w : Nat) : Option Instr :=
  match decode (tableBytes nbits w) with
  | .ok (i, _) => some i
  | .error _   => none

end Sys2Proof
end

