-- ==== Sys2Proof/Machine/State.lean ====
section
/-!
DEFINITION. The state of the core (the tuple that opens spec/10_state.md, R10 to R35), as plain data, the reasons
a step can stop, and the power-on state (R31 to R33, R171).
-/

namespace Sys2Proof.Machine

/-- Memory (R35): the bytes that differ from `Config.unlisted`, by strictly rising address. `Memory.wf`
in Machine/Ops.lean is that form. -/
abbrev Memory := List Host.Cell

/-- What a command hands back to its caller. The MODEL's own (log 14): the spec's commands return values (R80,
R132, R140) and the spec names no place that holds them. -/
inductive Reply where
  /-- Nothing yet, or a command without a return value (REQ_INT R130, ADVANCE R150). -/
  | nothing
  /-- A cycle count: STEP's (R80, R90) or the one SERVICE reports (R140, R143). -/
  | cycles (n : Nat)
  /-- PENDING's result (R132), `none` being the sentinel. -/
  | kind (k : Option Kind)
  deriving DecidableEq, Repr

/-- The machine state. The six memory-mapped registers (R24) are bytes of `mem` and have no second home. -/
@[ext]
structure State where
  /-- Accumulator and flags (R10, R13). -/
  af    : Word
  bc    : Word
  de    : Word
  hl    : Word
  /-- Stack pointer (R15). -/
  sp    : Word
  /-- Address of the next byte to fetch (R16). -/
  pc    : Word
  /-- Interrupt master enable (R18). -/
  ime   : Bool
  /-- `true` is state Halted (R19, R81). -/
  halt  : Bool
  /-- Branch taken (R20). -/
  bt    : Bool
  /-- Cycles of this STEP (R21). -/
  cyc   : Nat
  /-- Divider accumulator (R22). -/
  dacc  : Nat
  /-- Counter accumulator (R22). -/
  cacc  : Nat
  /-- The 65536 bytes (R35). -/
  mem   : Memory
  /-- The last command's return value (the model's own, log 14). -/
  reply : Reply
  deriving DecidableEq, Repr

/-- Why a step stops with a fault. EMPTY: "There are no exceptions, retries, or partial failures" (R138), STEP
"never fails" (R80), every bus access is total (R40), so nothing raises one. Safe. -/
inductive Fault where
  deriving DecidableEq, Repr

/-- Why the model gives no meaning. -/
inductive Refusal where
  /-- Raised by an arm of `exec` whose instruction has no meaning yet; no arm does. Safe. -/
  | notModelled (mnemonic : String)
  /-- Raised by `step` were the bytes at `pc` no instruction. Every byte is one (R61, R68) and a step hands the
  decoder both bytes of the longest, so no state reaches this. Safe. -/
  | undecoded (e : DecodeError)
  deriving DecidableEq, Repr

/-- The power-on state (R31, R32, R171), for each value of the parameters `RESET_IME` and `RESET_MEM` (R3). The pairs
and `halt` are the spec's values; `bt`, `cyc`, `dacc`, `cacc` are its decisions D6 and D7 (DESIGN CHOICE; logs 9
and 10, unsafe); `reply` is the model's own (log 14). -/
def State.powerOn (resetIme : Bool) (resetMem : Memory) : State where
  af    := 0x01B0#16
  bc    := 0x0013#16
  de    := 0x00D8#16
  hl    := 0x014D#16
  sp    := 0xFFFE#16
  pc    := 0x0100#16
  ime   := resetIme
  halt  := false
  bt    := false
  cyc   := 0
  dacc  := 0
  cacc  := 0
  mem   := resetMem
  reply := .nothing

/-- The machine after power-on with `RESET_IME` of Config and no byte of memory listed (DESIGN CHOICE; logs 8 and
11, unsafe). -/
def State.reset : State := State.powerOn Config.resetIme []

end Sys2Proof.Machine
end

