-- ==== Sys2Proof/Machine/Ops.lean ====
section
/-!
DEFINITION. The operations over memory and registers that every command and instruction shares: the bus (R40,
R46), the six memory-mapped registers (R24), the interrupt kinds (R66), a request (R130), the pending test (R132),
the interrupt service entry (R140), which is this core's one way of taking a trap, and the pop that undoes its push
(R120).
-/

namespace Sys2Proof.Machine

/-! ### Memory -/

/-- The byte at an address. -/
def Memory.read : Memory → Nat → Byte
  | [],          _ => Config.unlisted
  | (b, v) :: m, a => if a = b then v else Memory.read m a

/-- Put a byte at an address and keep the canonical form: a byte equal to what an unlisted address reads as is
not listed. -/
def Memory.write : Memory → Nat → Byte → Memory
  | [],          a, v => if v = Config.unlisted then [] else [(a, v)]
  | (b, w) :: m, a, v =>
    if a < b then (if v = Config.unlisted then (b, w) :: m else (a, v) :: (b, w) :: m)
    else if a = b then (if v = Config.unlisted then m else (a, v) :: m)
    else (b, w) :: Memory.write m a v

/-- Canonical from address `n` on: addresses rise strictly from at least `n`, stay inside the 16-bit space (R35),
and no listed byte is what an unlisted address reads as. -/
def Memory.wfFrom : Nat → Memory → Bool
  | _, []          => true
  | n, (a, v) :: m => decide (n ≤ a) && decide (a < 65536) && !(v == Config.unlisted) && Memory.wfFrom (a + 1) m

/-- The canonical form of memory: equal contents are equal lists. -/
def Memory.wf (m : Memory) : Bool := Memory.wfFrom 0 m

/-- A list of `MemWrite`s, in order. -/
def Memory.writeAll : Memory → List (Word × Byte) → Memory
  | m, []           => m
  | m, (a, v) :: ws => Memory.writeAll (m.write a.toNat v) ws

/-- `MemRead(a, 1)`: total, and without side effect (R40, R46). -/
def State.memRead (s : State) (a : Word) : Byte := s.mem.read a.toNat

/-- `MemWrite(a, 1, v)`: total; plain storage at every address (R40, R46). -/
def State.memWrite (s : State) (a : Word) (v : Byte) : State :=
  { s with mem := s.mem.write a.toNat v }

/-! ### The memory-mapped registers (R24) -/

/-- DIV (R27). -/
def divAddr : Word := 0xFF04#16
/-- TIMA (R28). -/
def timaAddr : Word := 0xFF05#16
/-- TMA (R29). -/
def tmaAddr : Word := 0xFF06#16
/-- TAC (R30). -/
def tacAddr : Word := 0xFF07#16
/-- IF (R26). -/
def ifAddr : Word := 0xFF0F#16
/-- IE (R25). -/
def ieAddr : Word := 0xFFFF#16

/-- The divider register: a fresh bus read, as is each of these (R24, "never caches them"). -/
def State.divReg (s : State) : Byte := s.memRead divAddr
/-- The counter register. -/
def State.timaReg (s : State) : Byte := s.memRead timaAddr
/-- The counter-reload register. -/
def State.tmaReg (s : State) : Byte := s.memRead tmaAddr
/-- The timer control register. -/
def State.tacReg (s : State) : Byte := s.memRead tacAddr
/-- The interrupt-flag register. -/
def State.ifReg (s : State) : Byte := s.memRead ifAddr
/-- The interrupt-enable register. -/
def State.ieReg (s : State) : Byte := s.memRead ieAddr

/-! ### Interrupt kinds (R66) -/

/-- The index of a kind, which is its bit number in IE and IF. -/
def kindIndex : Kind → Nat
  | .vblank  => 0
  | .lcdstat => 1
  | .timer   => 2
  | .serial  => 3
  | .joypad  => 4

/-- The mask `1 << k` of a kind. -/
def kindMask : Kind → Byte
  | .vblank  => 0x01#8
  | .lcdstat => 0x02#8
  | .timer   => 0x04#8
  | .serial  => 0x08#8
  | .joypad  => 0x10#8

/-- The address that SERVICE loads into `pc` (R141). -/
def kindVector : Kind → Word
  | .vblank  => 0x0040#16
  | .lcdstat => 0x0048#16
  | .timer   => 0x0050#16
  | .serial  => 0x0058#16
  | .joypad  => 0x0060#16

/-- The kinds by priority, highest first (R133). -/
def kindsByPriority : List Kind := [.vblank, .lcdstat, .timer, .serial, .joypad]

/-! ### Requests and the pending test -/

/-- `REQ_INT(k)`: set one bit of IF and keep the other seven (R130). -/
def requestInterrupt (k : Kind) (s : State) : State :=
  s.memWrite ifAddr (s.ifReg ||| kindMask k)

/-- `IE & IF & 0x1F`. -/
def State.pendingBits (s : State) : Byte := s.ieReg &&& s.ifReg &&& 0x1F#8

/-- `PENDING()`: the kind of the lowest set bit of `IE & IF & 0x1F`, or the sentinel (R132, R133). It reads no `ime`
and writes nothing. -/
def State.pendingKind (s : State) : Option Kind :=
  kindsByPriority.find? (fun k => !(s.pendingBits &&& kindMask k == 0x00#8))

/-! ### Taking an interrupt, and returning from one -/

/-- The cost that a service entry reports (R143). -/
def serviceCost : Nat := 20

/-- Push a word: high byte at `sp - 1`, low byte at `sp - 2`, the new `sp`, modulo 65536 (R142). PRESUMED: the byte
order is the spec's decision D3; log 7 (unsafe). -/
def push (w : Word) (s : State) : State :=
  { (s.memWrite (s.sp - 1#16) (hi w)).memWrite (s.sp - 2#16) (lo w) with sp := s.sp - 2#16 }

/-- `SERVICE(k)` (R140), in its order, which shows when the push lands on IF (R144): clear the request bit, clear
`ime`, push `pc`, load the vector. It adds nothing to `cyc`: its caller does. -/
def serviceInterrupt (k : Kind) (s : State) : State :=
  let cleared := s.memWrite ifAddr (s.ifReg &&& ~~~kindMask k)
  let pushed := push cleared.pc { cleared with ime := false }
  { pushed with pc := kindVector k }

/-- The word that a return operation pops: the exact inverse of the push (R120, R142). -/
def popped (v : View) : Word := pair (v.read (v.sp + 1#16)) (v.read v.sp)

/-- `sp` after that pop. -/
def afterPop (v : View) : Word := v.sp + 2#16

/-! ### Costs and replies -/

/-- Add a cost to the cycle counter (R21, R91). -/
def State.charge (s : State) (c : Nat) : State := { s with cyc := s.cyc + c }

/-- Hand a value back to the caller of a command (log 14). -/
def State.answer (s : State) (r : Reply) : State := { s with reply := r }

/-! ### What a dispatched operation sees and leaves -/

/-- The part of the state that an operation may read (R112). -/
def State.view (s : State) : View where
  af   := s.af
  bc   := s.bc
  de   := s.de
  hl   := s.hl
  sp   := s.sp
  pc   := s.pc
  ime  := s.ime
  halt := s.halt
  read := s.memRead

/-- Take over what an operation leaves (R112); `bt`, `cyc`, `dacc` and `cacc` stay (R113). -/
def State.takeEffect (s : State) (e : Effect) : State :=
  { s with
    af := e.af, bc := e.bc, de := e.de, hl := e.hl, sp := e.sp, pc := e.pc
    ime := e.ime, halt := e.halt, mem := s.mem.writeAll e.writes }

end Sys2Proof.Machine
end

