-- ==== Sys2Proof/Machine/Tables.lean ====
section
/-!
DEFINITION. The dispatch and cost tables (R3, R110). They are an argument of STEP (`stepWith` in Machine/Engine.lean):
any value of `Tables`, with no entry fixed; R116 is the condition `KeepsFlags`.

`exec` and `step` take no such argument, so they run under one value, `tables`: the fixture table T0
(spec/95_test_vectors.md section 3, D26), whose rows are rows of the opcode table, laid over free tables (DESIGN
CHOICE; logs 2, 3, 4). T0's own filler for the other bytes ("undefined in T0") is not taken over: U1 says that a
model must not pick a no-op.
-/

namespace Sys2Proof.Machine

/-! ### The operations of T0 -/

/-- `NOP`: nothing. -/
def opNop (v : View) : Effect × Bool := (unchanged v, false)

/-- `HALT`: `halt <- true` (R117). -/
def opHalt (v : View) : Effect × Bool := ({ unchanged v with halt := true }, false)

/-- `EI`: `ime <- true`, at once (R118). -/
def opEi (v : View) : Effect × Bool := ({ unchanged v with ime := true }, false)

/-- `DI`: `ime <- false`. -/
def opDi (v : View) : Effect × Bool := ({ unchanged v with ime := false }, false)

/-- `LD A,n`: the accumulator takes the operand byte. -/
def opLdAN (n : Byte) (v : View) : Effect × Bool :=
  ({ unchanged v with af := setHi v.af n, pc := afterImm v }, false)

/-- `LDH (n),A`: store the accumulator at `0xFF00 + n`. -/
def opLdhNA (n : Byte) (v : View) : Effect × Bool :=
  ({ unchanged v with pc := afterImm v, writes := [(highPage n, hi v.af)] }, false)

/-- `DEC A`. -/
def opDecA (v : View) : Effect × Bool :=
  ({ unchanged v with af := pair (decResult (hi v.af)) (decFlags (hi v.af) (lo v.af)) }, false)

/-- `JR NZ,e`: when zero is clear, add the displacement to `pc` past the operand and set `bt` (R119). -/
def opJrNzE (e : Byte) (v : View) : Effect × Bool :=
  if zeroFlag (lo v.af) then ({ unchanged v with pc := afterImm v }, false)
  else ({ unchanged v with pc := afterImm v + sext16 e }, true)

/-- `JR e`: always taken. -/
def opJrE (e : Byte) (v : View) : Effect × Bool :=
  ({ unchanged v with pc := afterImm v + sext16 e }, true)

/-- `RETI`: pop `pc`, the inverse of SERVICE's push (R120), and set `ime`. It leaves `bt` clear, as T0 has it. -/
def opReti (v : View) : Effect × Bool :=
  ({ unchanged v with pc := popped v, sp := afterPop v, ime := true }, false)

/-- `SWAP A`, an extended operation. -/
def opSwapA (v : View) : Effect :=
  { unchanged v with af := pair (swapResult (hi v.af)) (swapFlags (hi v.af)) }

/-- The entry of T0 in `PrimOp`; an operation with an operand reads it at `pc` (R114). -/
def fixtureOp : Fixture → View → Effect × Bool
  | .nop,   v => opNop v
  | .halt,  v => opHalt v
  | .ei,    v => opEi v
  | .di,    v => opDi v
  | .ldAN,  v => opLdAN (imm v) v
  | .ldhNA, v => opLdhNA (imm v) v
  | .decA,  v => opDecA v
  | .jrNzE, v => opJrNzE (imm v) v
  | .jrE,   v => opJrE (imm v) v
  | .reti,  v => opReti v

/-- T0's BaseCost column. -/
def fixtureBaseCost : Fixture → Nat
  | .nop   => 4
  | .halt  => 4
  | .ei    => 4
  | .di    => 4
  | .ldAN  => 8
  | .ldhNA => 12
  | .decA  => 4
  | .jrNzE => 8
  | .jrE   => 12
  | .reti  => 16

/-- T0's BranchCost column. -/
def fixtureBranchCost : Fixture → Nat
  | .nop   => 4
  | .halt  => 4
  | .ei    => 4
  | .di    => 4
  | .ldAN  => 8
  | .ldhNA => 12
  | .decA  => 4
  | .jrNzE => 12
  | .jrE   => 12
  | .reti  => 16

/-- T0's ExtCost of `SWAP A`. -/
def swapCost : Nat := 8

/-! ### Tables -/

/-- R116 as the condition on tables: every entry preserves `af[3:0] = 0`. -/
def KeepsFlags (T : Tables) : Prop :=
  (∀ (b : Byte) (v : View), flagsClear v.af = true → flagsClear (T.primOp b v).1.af = true) ∧
  (∀ (x : Byte) (v : View), flagsClear v.af = true → flagsClear (T.extOp x v).af = true)

/-- Keep an entry inside the contract R116: on a state whose low flags nibble is zero its result has one too. An
entry that obeys R116 passes unchanged (`keepFlags_of_contract`). -/
def keepFlags (v : View) (e : Effect) : Effect :=
  if flagsClear v.af then { e with af := e.af &&& 0xFFF0#16 } else e

/-- Tables with every entry kept inside R116. Tables that obey R116 pass unchanged (`lawful_of_keepFlags`), so this
shuts none of them out; others are no tables of this core (U7; log 3). -/
def lawful (T : Tables) : Tables where
  primOp b v   := (keepFlags v (T.primOp b v).1, (T.primOp b v).2)
  baseCost     := T.baseCost
  branchCost   := T.branchCost
  extOp x v    := keepFlags v (T.extOp x v)
  extCost      := T.extCost

/-- T0's eleven entries laid over any tables. -/
def withFixture (T : Tables) : Tables where
  primOp b v :=
    match Fixture.at? b with
    | some r => fixtureOp r v
    | none   => T.primOp b v
  baseCost b :=
    match Fixture.at? b with
    | some r => fixtureBaseCost r
    | none   => T.baseCost b
  branchCost b :=
    match Fixture.at? b with
    | some r => fixtureBranchCost r
    | none   => T.branchCost b
  extOp x v := if x = swapByte then opSwapA v else T.extOp x v
  extCost x := if x = swapByte then swapCost else T.extCost x

/-- The free tables of Config. -/
def freeTables : Tables where
  primOp     := Config.primOp
  baseCost   := Config.baseCost
  branchCost := Config.branchCost
  extOp      := Config.extOp
  extCost    := Config.extCost

/-- The tables that `exec` and `step` run under: one instance of the argument, as `State.reset` is one instance of
the power-on state (DESIGN CHOICE; log 2). -/
def tables : Tables := withFixture (lawful freeTables)

/-- `PrimOp[b]` of `tables`. -/
def primOp (b : Byte) (v : View) : Effect × Bool := tables.primOp b v

/-- `ExtOp[x]` of `tables`. -/
def extOp (x : Byte) (v : View) : Effect := tables.extOp x v

/-- `BaseCost[b]` of `tables`. -/
def baseCost (b : Byte) : Nat := tables.baseCost b

/-- `BranchCost[b]` of `tables`. -/
def branchCost (b : Byte) : Nat := tables.branchCost b

/-- `ExtCost[x]` of `tables`. -/
def extCost (x : Byte) : Nat := tables.extCost x

end Sys2Proof.Machine
end

