-- ==== Sys2Proof/Machine/Classes.lean ====
section
/-!
DEFINITION. The two instruction classes (R86 to R88), and the meaning of each instruction that has an encoding. A
meaning is the fetch-and-dispatch part of one STEP: from a state whose `pc` is the instruction's first byte, `pc`
moves past the bytes the core fetches, the operation runs, its cost is added to `cyc`. What STEP does around
it (R92: `cyc <- 0`, the halt test, the service attempt, ADVANCE) is in Machine/Engine.lean.
-/

namespace Sys2Proof.Machine

/-- One fetched byte further, modulo 65536 (R86). -/
def State.fetched (s : State) : State := { s with pc := s.pc + 1#16 }

/-- Format P1 (R86, R88) with the operation `op` and its two costs: `bt` is cleared first, and after the operation
it selects the cost. -/
def dispatchPrimary (op : View → Effect × Bool) (base branch : Nat) (s : State) : State :=
  let start := { s.fetched with bt := false }
  let out := op start.view
  let ran := { start.takeEffect out.1 with bt := out.2 }
  ran.charge (if out.2 then branch else base)

/-- Format P2 (R86, R87) with the operation `op` and its cost: `pc` moves past both bytes before it runs (DESIGN
CHOICE: the spec's decision D2; log 6), `bt` is neither cleared nor read (R89). -/
def dispatchExtended (op : View → Effect) (cost : Nat) (s : State) : State :=
  let start := s.fetched.fetched
  (start.takeEffect (op start.view)).charge cost

/-- The primary class under the tables `T` (R88): the opcode byte is the index. -/
def runPrimary (T : Tables) (b : Byte) (s : State) : State :=
  dispatchPrimary (T.primOp b) (T.baseCost b) (T.branchCost b) s

/-- The extended class under the tables `T` (R87): the second byte is the index. -/
def runExtended (T : Tables) (x : Byte) (s : State) : State :=
  dispatchExtended (T.extOp x) (T.extCost x) s

/-- The fetch path of STEP as R92 writes it: read the opcode byte, tell the format from it, index the table. -/
def fetchAndDispatch (T : Tables) (s : State) : State :=
  if s.memRead s.pc = Config.esc then runExtended T (s.memRead (s.pc + 1#16)) s
  else runPrimary T (s.memRead s.pc) s

/-- An entry of T0's primary table: its operation and T0's two costs. -/
def runFixture (r : Fixture) (op : View → Effect × Bool) (s : State) : State :=
  dispatchPrimary op (fixtureBaseCost r) (fixtureBranchCost r) s

/-- `OP_PRIMARY b` (R88). -/
def execOpPrimary (b : Byte) (s : State) : Host.Outcome State Fault Refusal :=
  .next (runPrimary tables b s)

/-- `OP_EXTENDED x` (R87). -/
def execOpExtended (x : Byte) (s : State) : Host.Outcome State Fault Refusal :=
  .next (runExtended tables x s)

/-- `NOP`. -/
def execNop (s : State) : Host.Outcome State Fault Refusal :=
  .next (runFixture .nop opNop s)

/-- `HALT`. -/
def execHalt (s : State) : Host.Outcome State Fault Refusal :=
  .next (runFixture .halt opHalt s)

/-- `EI`. -/
def execEi (s : State) : Host.Outcome State Fault Refusal :=
  .next (runFixture .ei opEi s)

/-- `DI`. -/
def execDi (s : State) : Host.Outcome State Fault Refusal :=
  .next (runFixture .di opDi s)

/-- `LD A,n`. -/
def execLdAN (n : Byte) (s : State) : Host.Outcome State Fault Refusal :=
  .next (runFixture .ldAN (opLdAN n) s)

/-- `LDH (n),A`. -/
def execLdhNA (n : Byte) (s : State) : Host.Outcome State Fault Refusal :=
  .next (runFixture .ldhNA (opLdhNA n) s)

/-- `DEC A`. -/
def execDecA (s : State) : Host.Outcome State Fault Refusal :=
  .next (runFixture .decA opDecA s)

/-- `JR NZ,e`. -/
def execJrNzE (e : Byte) (s : State) : Host.Outcome State Fault Refusal :=
  .next (runFixture .jrNzE (opJrNzE e) s)

/-- `JR e`. -/
def execJrE (e : Byte) (s : State) : Host.Outcome State Fault Refusal :=
  .next (runFixture .jrE (opJrE e) s)

/-- `RETI`. -/
def execReti (s : State) : Host.Outcome State Fault Refusal :=
  .next (runFixture .reti opReti s)

/-- `SWAP A`. -/
def execSwapA (s : State) : Host.Outcome State Fault Refusal :=
  .next (dispatchExtended opSwapA swapCost s)

end Sys2Proof.Machine
end

