-- ==== Sys2Proof/Machine/Timer.lean ====
section
/-!
DEFINITION. The timer synchroniser ADVANCE (R150 to R158): the divider channel, then the counter channel (R157).
The two while-loops are written with the number of crossings that R151 and R153 give for them, and the
accumulator's remainder (DEDUCED; log 21, safe).
-/

namespace Sys2Proof.Machine

/-- Do a thing `n` times. -/
def repeatTimes : Nat → (State → State) → State → State
  | 0,     _, s => s
  | n + 1, f, s => repeatTimes n f (f s)

/-- Cycles per DIV increment (R151). -/
def divPeriod : Nat := 256

/-- The enable bit of TAC, bit 2 (R30, R152). -/
def tacEnabled (tac : Byte) : Bool := tac.getLsbD 2

/-- The threshold that `TAC[1:0]` selects (R154). -/
def tacThreshold (tac : Byte) : Nat :=
  match (tac &&& 0x03#8).toNat with
  | 0 => 1024
  | 1 => 16
  | 2 => 64
  | _ => 256

/-- One divider crossing: DIV goes up by one, wrapping (R27, R151). -/
def incrementDiv (s : State) : State := s.memWrite divAddr (s.divReg + 1#8)

/-- One counter crossing (R155): TIMA goes up by one, or from 0xFF is reloaded from TMA with a Timer request. -/
def incrementTima (s : State) : State :=
  if s.timaReg = 0xFF#8 then requestInterrupt .timer (s.memWrite timaAddr s.tmaReg)
  else s.memWrite timaAddr (s.timaReg + 1#8)

/-- The divider channel, always active (R151). -/
def advanceDivider (c : Nat) (s : State) : State :=
  let total := s.dacc + c
  repeatTimes (total / divPeriod) incrementDiv { s with dacc := total % divPeriod }

/-- The counter channel (R152 to R155): nothing unless enabled; TAC is read once. -/
def advanceCounter (c : Nat) (s : State) : State :=
  if tacEnabled s.tacReg then
    let total := s.cacc + c
    let period := tacThreshold s.tacReg
    repeatTimes (total / period) incrementTima { s with cacc := total % period }
  else s

/-- `ADVANCE(c)` (R150). -/
def advanceTimer (c : Nat) (s : State) : State := advanceCounter c (advanceDivider c s)

end Sys2Proof.Machine
end

