-- ==== Sys2Proof/Machine/Engine.lean ====
section
/-!
DEFINITION. STEP, the execution engine (R80 to R92), around whatever runs one instruction; and the place where an
instruction is laid for the next STEP to fetch.
-/

namespace Sys2Proof.Machine

/-- The cost of an idle STEP (R83). -/
def idleCost : Nat := 4

/-- Halted with nothing pending: this STEP idles (R83). `ime` is not consulted (R82). -/
def State.idles (s : State) : Bool := s.halt && s.pendingBits == 0x00#8

/-- The kind that this STEP services, if it does (R84): none with `ime` false, whatever is pending. -/
def State.serviceKind (s : State) : Option Kind := if s.ime then s.pendingKind else none

/-- The start of a STEP that does not idle: `cyc <- 0` (R21), and a halted core wakes, at no cost (R82). -/
def State.started (s : State) : State := { s with cyc := 0, halt := false }

/-- The end of every STEP: ADVANCE by the whole cost, then return it (R90). -/
def finishStep (s : State) : State := (advanceTimer s.cyc s).answer (.cycles s.cyc)

/-- The end of a STEP that ran an instruction. -/
def finishRun : Host.Outcome State Fault Refusal → Host.Outcome State Fault Refusal
  | .next t    => .next (finishStep t)
  | .fault r   => .fault r
  | .refused r => .refused r

/-- R92, with `run` for the lines between the service attempt and ADVANCE. -/
def engine (run : State → Host.Outcome State Fault Refusal) (s : State) :
    Host.Outcome State Fault Refusal :=
  if s.idles then .next (finishStep ({ s with cyc := 0 }.charge idleCost))
  else
    match s.serviceKind with
    | some k => .next (finishStep ((serviceInterrupt k s.started).charge serviceCost))
    | none   => finishRun (run s.started)

/-- `STEP` as R92 writes it, with the tables as the argument R3 makes them: the fetched byte indexes them. -/
def stepWith (T : Tables) (s : State) : Host.Outcome State Fault Refusal :=
  engine (fun t => .next (fetchAndDispatch T t)) s

/-- `STEP`, under `tables`. -/
def execStep (s : State) : Host.Outcome State Fault Refusal := stepWith tables s

/-- The bytes at `pc` that the decoder is given: as many as the longest instruction has. -/
def State.fetchBytes (s : State) : List Byte := [s.memRead s.pc, s.memRead (s.pc + 1#16)]

/-- Decode the bytes at `pc` and run the instruction. -/
def decodeAndRun (run : Instr → State → Host.Outcome State Fault Refusal) (s : State) :
    Host.Outcome State Fault Refusal :=
  match decode s.fetchBytes with
  | .ok (i, _) => run i s
  | .error e   => .refused (.undecoded e)

/-- Lay bytes from an address on, wrapping. -/
def layBytes : Word → List Byte → State → State
  | _, [],      s => s
  | a, b :: bs, s => layBytes (a + 1#16) bs (s.memWrite a b)

/-- Lay an instruction's bytes at `pc` so that the very next STEP fetches them: the core is Running, and if an interrupt would
be serviced first, `ime` is cleared. Nothing else changes. It stands for the load of `RESET_MEM` (R172; log 17). -/
def placeInstruction (bytes : List Byte) (s : State) : State :=
  let laid := layBytes s.pc bytes s
  { laid with halt := false, ime := laid.ime && laid.pendingKind.isNone }

end Sys2Proof.Machine
end

