-- ==== Sys2Proof/Machine/Commands.lean ====
section
/-!
DEFINITION. The commands without an encoding other than STEP (R72): REQ_INT, PENDING, SERVICE, ADVANCE, as moves
of their own. Inside a STEP the engine uses the same operations of Machine/Ops.lean and Machine/Timer.lean.
-/

namespace Sys2Proof.Machine

/-- `REQ_INT(k)`, between two STEPs (R130, R175): "side effect only, no return value". -/
def execReqInt (k : Kind) (s : State) : Host.Outcome State Fault Refusal :=
  .next ((requestInterrupt k s).answer .nothing)

/-- `PENDING()` (R132): a kind or the sentinel, handed back; no state of the core is written. -/
def execPending (s : State) : Host.Outcome State Fault Refusal :=
  .next (s.answer (.kind s.pendingKind))

/-- `SERVICE(k)` (R140): the entry, reporting its cost (R143); adding it to `cyc` is the caller's. STEP invokes it only
with `ime` true and `k` pending; its effect does not depend on either (DEDUCED; log 15). -/
def execService (k : Kind) (s : State) : Host.Outcome State Fault Refusal :=
  .next ((serviceInterrupt k s).answer (.cycles serviceCost))

/-- `ADVANCE(c)` (R150): no return value. -/
def execAdvance (c : Nat) (s : State) : Host.Outcome State Fault Refusal :=
  .next ((advanceTimer c s).answer .nothing)

end Sys2Proof.Machine
end

