-- ==== Sys2Proof/Machine/Dispatch.lean ====
section
/-!
DEFINITION. One arm per row of the opcode table.
-/

namespace Sys2Proof.Machine

def exec (i : Instr) (s : State) : Host.Outcome State Fault Refusal :=
  match i with
  | .opPrimary b => Sys2Proof.Machine.execOpPrimary b s
  | .opExtended x => Sys2Proof.Machine.execOpExtended x s
  | .step => Sys2Proof.Machine.execStep s
  | .reqInt k => Sys2Proof.Machine.execReqInt k s
  | .pending => Sys2Proof.Machine.execPending s
  | .service k => Sys2Proof.Machine.execService k s
  | .advance c => Sys2Proof.Machine.execAdvance c s
  | .nop => Sys2Proof.Machine.execNop s
  | .halt => Sys2Proof.Machine.execHalt s
  | .ei => Sys2Proof.Machine.execEi s
  | .di => Sys2Proof.Machine.execDi s
  | .ldAN n => Sys2Proof.Machine.execLdAN n s
  | .ldhNA n => Sys2Proof.Machine.execLdhNA n s
  | .decA => Sys2Proof.Machine.execDecA s
  | .jrNzE e => Sys2Proof.Machine.execJrNzE e s
  | .jrE e => Sys2Proof.Machine.execJrE e s
  | .reti => Sys2Proof.Machine.execReti s
  | .swapA => Sys2Proof.Machine.execSwapA s

end Sys2Proof.Machine
end

