-- ==== Sys2Proof/Machine/Step.lean ====
section
/-!
DEFINITION. The machine's step, which is STEP (R92) running the instruction that the decoder reads at `pc`; and
the placing of an instruction where it fetches.
-/

namespace Sys2Proof.Machine

/-- One STEP. -/
def step (s : State) : Host.Outcome State Fault Refusal := engine (decodeAndRun exec) s

/-- `s` with an instruction of the opcode table laid where `step` fetches its next one. -/
def State.withFetchWord (s : State) (nbits w : Nat) : State :=
  placeInstruction (tableBytes nbits w) s

end Sys2Proof.Machine
end

