-- ==== Sys2Proof/Safety.lean ====
section
/-!
DEFINITION. What a run is, and what stays true along one. "A run is the finite sequence of STEPs and REQ_INTs the
driver and the peripherals chose to issue" (R99); a request stands between two STEPs, never inside one (R175).
-/

namespace Sys2Proof.Machine

/-- The two moves of a run. -/
inductive Move where
  /-- The driver issues STEP. -/
  | step
  /-- A peripheral issues REQ_INT(k). -/
  | request (k : Kind)
  deriving DecidableEq, Repr

/-- One move, with `stp` for STEP. -/
def Move.actBy (stp : State → Host.Outcome State Fault Refusal) :
    Move → State → Host.Outcome State Fault Refusal
  | .step,      s => stp s
  | .request k, s => .next ((requestInterrupt k s).answer .nothing)

/-- A run of moves, ending at the first stop. -/
def runBy (stp : State → Host.Outcome State Fault Refusal) :
    List Move → State → Host.Outcome State Fault Refusal
  | [],      s => .next s
  | m :: ms, s =>
    match m.actBy stp s with
    | .next t    => runBy stp ms t
    | .fault r   => .fault r
    | .refused r => .refused r

/-- A run of the host's machine. -/
def runMoves (ms : List Move) (s : State) : Host.Outcome State Fault Refusal := runBy step ms s

/-- A run of the core under any tables (R3). -/
def runWith (T : Tables) (ms : List Move) (s : State) : Host.Outcome State Fault Refusal := runBy (stepWith T) ms s

/-- The invariant of the core: memory keeps its canonical form, both accumulators hold a remainder (R23), and the
low nibble of the flags is zero (R13, R116). -/
structure State.Inv (s : State) : Prop where
  memory  : s.mem.wf = true
  divider : s.dacc < 256
  counter : s.cacc < 1024
  flags   : flagsClear s.af = true

end Sys2Proof.Machine
end

