-- ==== Sys2Proof/WellFormed.lean ====
section
/-!
DEFINITION. Well-formed instructions: the terms that name a word by its own row. Every operand type is exact (a
byte, a kind, a number of cycles), so two checks remain. `OP_PRIMARY` excludes `ESC` (R60, the row's "exclude").
And a byte that a fixture row of the table names is written with that row's constructor, so that each encoding has one
well-formed term (log 16).
-/

namespace Sys2Proof

/-- A primary opcode byte is not the escape value (R60). -/
def notEscape (b : Byte) : Bool := !(b == Config.esc)

/-- No fixture row names this primary opcode byte. -/
def notFixturePrimary (b : Byte) : Bool := (Fixture.at? b).isNone

/-- No fixture row names this second byte. -/
def notFixtureExtended (x : Byte) : Bool := !(x == swapByte)

/-- The well-formed instructions. -/
def Instr.wellFormed : Instr → Bool
  | .opPrimary b  => notEscape b && notFixturePrimary b
  | .opExtended x => notFixtureExtended x
  | .step         => true
  | .reqInt _     => true
  | .pending      => true
  | .service _    => true
  | .advance _    => true
  | .nop          => true
  | .halt         => true
  | .ei           => true
  | .di           => true
  | .ldAN _       => true
  | .ldhNA _      => true
  | .decA         => true
  | .jrNzE _      => true
  | .jrE _        => true
  | .reti         => true
  | .swapA        => true

end Sys2Proof
end

