-- ==== Sys2Proof/Certificates/Slice0/Obligations.lean ====
section
/-!
DEFINITION. The statements for the provers, each from the spec's rules. The section "Under any tables" takes the five
tables as an argument, as R3 has it; the statements about `exec` and `step` are about the one instance that these two
run under (`tables`, log 2), whose entries other than T0's are free. `s.mem.wf` (the canonical form of memory)
stands as a premise where a statement reads a byte that was written; `StepKeepsInvariant` and `RunsCompleteAndKeepInvariant`
say that every step keeps it.
-/

open Sys2Proof Sys2Proof.Machine

/-! ### Power-on -/

/-- R31, for every RESET_IME and RESET_MEM: the six register pairs, and that the first STEP fetches from 0x0100
(R33: with RESET_IME true, RESET_MEM has nothing pending). -/
def Obligations.PowerOnRegistersAndFirstFetch : Prop :=
  ∀ (resetIme : Bool) (resetMem : Memory),
    let s := State.powerOn resetIme resetMem
    (s.pc = 0x0100#16 ∧ s.sp = 0xFFFE#16 ∧ s.af = 0x01B0#16 ∧ s.bc = 0x0013#16 ∧ s.de = 0x00D8#16 ∧
      s.hl = 0x014D#16) ∧
    ((resetIme = true → s.ieReg &&& s.ifReg &&& 0x1F#8 = 0x00#8) →
      ∀ (i : Instr) (rest : List Byte),
        decode [s.memRead 0x0100#16, s.memRead 0x0101#16] = .ok (i, rest) →
          ∃ t, exec i s = .next t ∧ step s = .next (finishStep t))

/-- The rest of the power-on state: `halt` is the document's, the other values are the spec's decisions D4, D6, D7
and D8, the model's choice (logs 8, 9, 10, 11); `reply` is the model's own field (log 14). -/
def Obligations.PowerOnRemainingState : Prop :=
  (∀ (resetIme : Bool) (resetMem : Memory),
    let s := State.powerOn resetIme resetMem
    s.halt = false ∧ s.ime = resetIme ∧ s.bt = false ∧ s.cyc = 0 ∧ s.dacc = 0 ∧ s.cacc = 0 ∧
      s.mem = resetMem ∧ s.reply = .nothing) ∧
  State.reset = State.powerOn false []

/-- The invariant holds at power-on, for every RESET_IME and every canonical RESET_MEM, `State.reset` among them (that
instance is the model's choice, logs 8 and 11). The bounds on `dacc` and `cacc` hold because both are 0 there, which
is decision D7, the model's choice (log 10); the flags clause is the stated `af` (R13, R31, R116). -/
def Obligations.PowerOnMeetsInvariant : Prop :=
  State.reset.Inv ∧
  ∀ (resetIme : Bool) (resetMem : Memory), resetMem.wf = true → (State.powerOn resetIme resetMem).Inv

/-! ### Encoding -/

/-- R66: the index, mask and vector of each of the five kinds; the set of kinds is closed, and bits 7 to 5 of IE and IF
select none. -/
def Obligations.KindsHaveTheirMasksAndVectors : Prop :=
  (kindMask .vblank = 0x01#8 ∧ kindMask .lcdstat = 0x02#8 ∧ kindMask .timer = 0x04#8 ∧
    kindMask .serial = 0x08#8 ∧ kindMask .joypad = 0x10#8) ∧
  (∀ k : Kind, kindMask k = 1#8 <<< kindIndex k ∧ kindVector k = 0x0040#16 + BitVec.ofNat 16 (8 * kindIndex k)) ∧
  (∀ n : Nat, n < 5 ↔ ∃ k : Kind, kindIndex k = n) ∧
  (∀ j k : Kind, kindIndex j = kindIndex k → j = k) ∧
  (∀ s : State, s.ieReg &&& s.ifReg &&& 0x1F#8 = 0x00#8 → s.pendingKind = none)

/-- Words written out from the spec's encodings (spec/opcode_table.json) decode to their rows. That 0xCB is the escape
byte is decision D1, the model's choice (log 1, PRESUMED); that a byte with a T0 row decodes to that row, with its
operand byte, is the model's choice too (logs 2 and 16). -/
def Obligations.SpecWordsDecode : Prop :=
  decode [0b00000000#8] = .ok (.nop, []) ∧
  decode [0b01110110#8] = .ok (.halt, []) ∧
  decode [0b00111110#8, 0x05#8] = .ok (.ldAN 0x05#8, []) ∧
  decode [0b00100000#8, 0xFD#8] = .ok (.jrNzE 0xFD#8, []) ∧
  decode [0b11011001#8, 0x00#8] = .ok (.reti, [0x00#8]) ∧
  decode [0b01000111#8] = .ok (.opPrimary 0x47#8, []) ∧
  decode [0b11001011#8, 0b00110111#8] = .ok (.swapA, []) ∧
  decode [0b11001011#8, 0b01111100#8] = .ok (.opExtended 0x7C#8, [])

/-- R63: byte 0 alone tells the format, and `ESC, ESC` is the extended instruction with index ESC. -/
def Obligations.FirstByteTellsFormat : Prop :=
  (∀ (b c : Byte) (rest : List Byte), ∃ i r, decode (b :: c :: rest) = .ok (i, r) ∧
    (b = Config.esc ↔ i = .swapA ∨ i = .opExtended c) ∧
    (b ≠ Config.esc → ∃ n, encode i = some (b :: n))) ∧
  (∀ rest : List Byte, decode (Config.esc :: Config.esc :: rest) = .ok (.opExtended Config.esc, rest))

/-- Decoding undoes encoding, for every well-formed instruction that has an encoding, whatever bytes follow. -/
def Obligations.DecodeUndoesEncode : Prop :=
  ∀ (i : Instr) (bs rest : List Byte), i.wellFormed = true → encode i = some bs →
    decode (bs ++ rest) = .ok (i, rest)

/-- No byte value is illegal (R61, R68): two bytes always hold a well-formed instruction, and its encoding and the
rest are the bytes that were read. -/
def Obligations.EveryByteIsDispatched : Prop :=
  ∀ (b c : Byte) (rest : List Byte), ∃ i bs r, decode (b :: c :: rest) = .ok (i, r) ∧
    i.wellFormed = true ∧ encode i = some bs ∧ bs ++ r = b :: c :: rest

/-! ### Registers -/

/-- R11: the two halves of a pair. A write of one leaves the other, and the two make up the pair. -/
def Obligations.HalvesAreIndependent : Prop :=
  ∀ (w : Word) (v : Byte),
    hi (setHi w v) = v ∧ lo (setHi w v) = lo w ∧ hi (setLo w v) = hi w ∧ lo (setLo w v) = v ∧
    (∀ n < 8, (hi w).getLsbD n = w.getLsbD (n + 8) ∧ (lo w).getLsbD n = w.getLsbD n) ∧
    pair (hi w) (lo w) = w

/-! ### The commands -/

/-- R130: REQ_INT(k) sets bit k of IF and changes nothing else; a bit already set changes nothing. -/
def Obligations.RequestSetsItsBit : Prop :=
  ∀ (k : Kind) (s : State), s.mem.wf = true →
    ∃ t, exec (.reqInt k) s = .next t ∧
      t.ifReg = s.ifReg ||| (1#8 <<< kindIndex k) ∧
      (∀ a : Word, a ≠ 0xFF0F#16 → t.memRead a = s.memRead a) ∧
      (s.ifReg.getLsbD (kindIndex k) = true → t.mem = s.mem) ∧
      t = { s with mem := t.mem, reply := .nothing }

/-- R132, R133: PENDING gives the lowest set bit of `IE & IF & 0x1F` as a kind, or the sentinel, writes nothing
of the core (`reply` is the model's, log 14), and does not consult `ime`. -/
def Obligations.PendingIsLowestSetBit : Prop :=
  ∀ s : State, ∃ r : Option Kind,
    exec .pending s = .next { s with reply := .kind r } ∧
    (r = none ↔ s.ieReg &&& s.ifReg &&& 0x1F#8 = 0x00#8) ∧
    (∀ k : Kind, r = some k ↔
      (s.ieReg.getLsbD (kindIndex k) = true ∧ s.ifReg.getLsbD (kindIndex k) = true) ∧
      ∀ j < kindIndex k, ¬(s.ieReg.getLsbD j = true ∧ s.ifReg.getLsbD j = true)) ∧
    (∀ b : Bool, exec .pending { s with ime := b } = .next { s with ime := b, reply := .kind r })

/-- R134, first part: a kind whose IE bit is clear is never pending, whatever IF and `ime` hold, and REQ_INT
still sets its IF bit; with `ime` false no STEP services, whatever is pending. -/
def Obligations.MaskedKindIsNeverPending : Prop :=
  (∀ (k : Kind) (s : State), s.ieReg.getLsbD (kindIndex k) = false →
    (∃ r, exec .pending s = .next { s with reply := .kind r } ∧ r ≠ some k) ∧ s.serviceKind ≠ some k) ∧
  (∀ (k : Kind) (s : State), s.mem.wf = true →
    ∃ t, exec (.reqInt k) s = .next t ∧ t.ifReg.getLsbD (kindIndex k) = true ∧ t.ieReg = s.ieReg) ∧
  (∀ s : State, s.ime = false → s.serviceKind = none)

/-- SERVICE(k) (R140, R142): the request bit is cleared, `ime` is cleared, `pc` is pushed, high byte at `sp - 1` and
low byte at `sp - 2` (the byte order is decision D3, the model's choice, log 7), `sp` goes down by two, `pc` is the
vector; IF is the old value less bit k unless the push lands on it. Nothing else changes (`cyc` is the caller's). -/
def Obligations.ServiceEntersHandler : Prop :=
  ∀ (k : Kind) (s : State), s.mem.wf = true →
    ∃ t, exec (.service k) s = .next t ∧
      t.memRead (s.sp - 1#16) = hi s.pc ∧ t.memRead (s.sp - 2#16) = lo s.pc ∧
      (s.sp - 1#16 ≠ 0xFF0F#16 → s.sp - 2#16 ≠ 0xFF0F#16 →
        t.ifReg = s.ifReg &&& ~~~(1#8 <<< kindIndex k)) ∧
      (∀ a : Word, a ≠ 0xFF0F#16 → a ≠ s.sp - 1#16 → a ≠ s.sp - 2#16 → t.memRead a = s.memRead a) ∧
      t = { s with pc := kindVector k, sp := s.sp - 2#16, ime := false, mem := t.mem, reply := .cycles 20 }

/-- R141: the five vectors, loaded unconditionally. -/
def Obligations.ServiceLoadsFixedVector : Prop :=
  ∀ s : State,
    (∃ t, exec (.service .vblank) s = .next t ∧ t.pc = 0x0040#16) ∧
    (∃ t, exec (.service .lcdstat) s = .next t ∧ t.pc = 0x0048#16) ∧
    (∃ t, exec (.service .timer) s = .next t ∧ t.pc = 0x0050#16) ∧
    (∃ t, exec (.service .serial) s = .next t ∧ t.pc = 0x0058#16) ∧
    (∃ t, exec (.service .joypad) s = .next t ∧ t.pc = 0x0060#16)

/-- R144 and R180 (derived by the spec; byte order D3, log 7): the push is an ordinary write after the IF bit was
cleared, so a stack pointer just above a register makes the pushed byte that register's value. -/
def Obligations.PushMayLandOnRegisters : Prop :=
  ∀ (k : Kind) (s t : State), s.mem.wf = true → exec (.service k) s = .next t →
    (s.sp = 0xFF11#16 → t.ifReg = lo s.pc) ∧
    (s.sp = 0xFF10#16 → t.ifReg = hi s.pc) ∧
    (s.sp = 0x0001#16 → t.ieReg = lo s.pc ∧ t.memRead 0x0000#16 = hi s.pc ∧ t.sp = 0xFFFF#16) ∧
    (s.sp = 0x0000#16 → t.ieReg = hi s.pc ∧ t.memRead 0xFFFE#16 = lo s.pc ∧ t.sp = 0xFFFE#16) ∧
    (s.sp = 0xFF06#16 → t.timaReg = hi s.pc ∧ t.divReg = lo s.pc) ∧
    (s.sp = 0xFF08#16 → t.tacReg = hi s.pc ∧ t.tmaReg = lo s.pc)

/-- The round trip that R42 and R120 ask of the push, at every stack pointer: RETI (the fixture's return, log 2)
after SERVICE restores `pc` and `sp` and sets `ime`. -/
def Obligations.ReturnUndoesService : Prop :=
  ∀ (k : Kind) (s t : State), s.mem.wf = true → exec (.service k) s = .next t →
    ∃ u, exec .reti t = .next u ∧ u.pc = s.pc ∧ u.sp = s.sp ∧ u.ime = true ∧ u.mem = t.mem ∧
      u.af = s.af ∧ u.bc = s.bc ∧ u.de = s.de ∧ u.hl = s.hl

/-! ### The timer -/

/-- R151: the divider channel, whatever TAC holds: DIV gains one for each 256 cycles, modulo 256, the remainder is
carried, and it raises no interrupt. -/
def Obligations.DividerCountsEvery256Cycles : Prop :=
  ∀ (c : Nat) (s : State), s.mem.wf = true →
    ∃ t, exec (.advance c) s = .next t ∧
      t.dacc = (s.dacc + c) % 256 ∧
      t.divReg = s.divReg + BitVec.ofNat 8 ((s.dacc + c) / 256) ∧
      (s.tacReg.getLsbD 2 = false → t.ifReg = s.ifReg)

/-- R152: with TAC bit 2 clear the counter channel does nothing: its accumulator, TIMA and IF stay, and only DIV
of all memory can change. -/
def Obligations.DisabledCounterDoesNothing : Prop :=
  ∀ (c : Nat) (s : State), s.mem.wf = true → s.tacReg.getLsbD 2 = false →
    ∃ t, exec (.advance c) s = .next t ∧
      t.cacc = s.cacc ∧ t.timaReg = s.timaReg ∧ t.ifReg = s.ifReg ∧
      (∀ a : Word, a ≠ 0xFF04#16 → t.memRead a = s.memRead a)

/-- R153, R154, with R155 for the crossings: with TAC bit 2 set and the threshold T that `TAC[1:0]` selects, there are
`floor((cacc + c) / T)` crossings and the remainder is kept. TIMA counts up by the crossings; once they pass 0xFF it
is reloaded from TMA and counts on from there, reloading each time, and the Timer bit of IF is set. -/
def Obligations.EnabledCounterCountsCrossings : Prop :=
  ∀ (c : Nat) (s : State), s.mem.wf = true → s.tacReg.getLsbD 2 = true →
    ∀ T : Nat,
      (s.tacReg &&& 0x03#8 = 0#8 → T = 1024) → (s.tacReg &&& 0x03#8 = 1#8 → T = 16) →
      (s.tacReg &&& 0x03#8 = 2#8 → T = 64) → (s.tacReg &&& 0x03#8 = 3#8 → T = 256) →
      ∃ t, exec (.advance c) s = .next t ∧
        t.cacc = (s.cacc + c) % T ∧
        (s.timaReg.toNat + (s.cacc + c) / T < 256 →
          t.timaReg.toNat = s.timaReg.toNat + (s.cacc + c) / T ∧ t.ifReg = s.ifReg) ∧
        (256 ≤ s.timaReg.toNat + (s.cacc + c) / T →
          t.timaReg.toNat = s.tmaReg.toNat +
            ((s.cacc + c) / T - (256 - s.timaReg.toNat)) % (256 - s.tmaReg.toNat) ∧
          t.ifReg = s.ifReg ||| 0x04#8)

/-- R155, one crossing: TIMA at 0xFF takes TMA's value and the Timer bit of IF is set, whatever IE and `ime` are;
any other value goes up by one and IF stays. -/
def Obligations.CounterOverflowReloadsAndRequests : Prop :=
  ∀ (c : Nat) (s : State), s.mem.wf = true → s.tacReg.getLsbD 2 = true →
    (s.cacc + c) / tacThreshold s.tacReg = 1 →
    ∃ t, exec (.advance c) s = .next t ∧
      (s.timaReg = 0xFF#8 → t.timaReg = s.tmaReg ∧ t.ifReg = s.ifReg ||| 0x04#8) ∧
      (s.timaReg ≠ 0xFF#8 → t.timaReg = s.timaReg + 1#8 ∧ t.ifReg = s.ifReg)

/-- No cycle is lost or counted twice (R151, R153): two ADVANCEs in a row leave exactly the state that one ADVANCE
by the sum leaves. -/
def Obligations.AdvanceIsAdditive : Prop :=
  ∀ (a b : Nat) (s t : State), s.mem.wf = true → exec (.advance a) s = .next t →
    exec (.advance b) t = exec (.advance (a + b)) s

/-- The frame of ADVANCE (R150): it writes the two accumulators and, of memory, DIV, TIMA and IF; TAC, TMA and IE
it never writes (R24). -/
def Obligations.AdvanceFrame : Prop :=
  ∀ (c : Nat) (s : State), ∃ t, exec (.advance c) s = .next t ∧
    t = { s with dacc := t.dacc, cacc := t.cacc, mem := t.mem, reply := .nothing } ∧
    (∀ a : Word, a ≠ 0xFF04#16 → a ≠ 0xFF05#16 → a ≠ 0xFF0F#16 → t.memRead a = s.memRead a)

/-- ADVANCE(0) (R150) changes nothing when no accumulator stands at its threshold. -/
def Obligations.AdvanceZeroChangesNothing : Prop :=
  ∀ s : State, s.dacc < 256 → (s.tacReg.getLsbD 2 = true → s.cacc < tacThreshold s.tacReg) →
    exec (.advance 0) s = .next { s with reply := .nothing }

/-- The bounds of R23 after any ADVANCE, from any state. -/
def Obligations.AccumulatorsHoldRemainders : Prop :=
  ∀ (c : Nat) (s : State), ∃ t, exec (.advance c) s = .next t ∧ t.dacc < 256 ∧
    (s.tacReg.getLsbD 2 = true → t.cacc < tacThreshold s.tacReg ∧ t.cacc < 1024) ∧
    (s.tacReg.getLsbD 2 = false → t.cacc = s.cacc)

/-! ### STEP -/

/-- R99: every state has exactly one next state under STEP. -/
def Obligations.StepIsEnabledEverywhere : Prop :=
  ∀ s : State, (∃ t, step s = .next t) ∧ ∀ t u : State, step s = .next t → step s = .next u → t = u

/-- The core has no fault and no refusal (R80, R138): every instruction and command completes, in every state. -/
def Obligations.NothingStops : Prop :=
  ∀ (i : Instr) (s : State), ∃ t, exec i s = .next t

/-- The machine's step, which decodes the bytes at `pc` and runs the instruction, is STEP as R92 writes it, which
indexes the tables with the fetched byte. -/
def Obligations.StepIsTheStepCommand : Prop :=
  ∀ s : State, step s = exec .step s

/-- A step runs the decoded instruction: when it neither idles nor services, and the bytes at `pc` hold `i`, the
step is `exec i` on the state with `cyc` at 0 and `halt` cleared (R82), then ADVANCE by the cost, which is also returned
(R90). -/
def Obligations.StepRunsDecodedInstruction : Prop :=
  ∀ (s : State) (i : Instr) (rest : List Byte),
    (s.halt = true → s.ieReg &&& s.ifReg &&& 0x1F#8 ≠ 0x00#8) →
    (s.ime = true → s.ieReg &&& s.ifReg &&& 0x1F#8 = 0x00#8) →
    decode [s.memRead s.pc, s.memRead (s.pc + 1#16)] = .ok (i, rest) →
    ∃ t u, exec i { s with cyc := 0, halt := false } = .next t ∧
      exec (.advance t.cyc) t = .next u ∧ step s = .next { u with reply := .cycles t.cyc }

/-- R83: halted with nothing pending, a STEP costs 4, runs ADVANCE(4), and changes nothing else. -/
def Obligations.HaltedStepIdles : Prop :=
  ∀ s : State, s.halt = true → s.ieReg &&& s.ifReg &&& 0x1F#8 = 0x00#8 →
    ∃ u t, exec (.advance 4) { s with cyc := 4 } = .next u ∧ t = { u with reply := .cycles 4 } ∧
      exec .step s = .next t ∧ step s = .next t ∧
      t = { s with cyc := 4, dacc := t.dacc, cacc := t.cacc, mem := t.mem, reply := .cycles 4 }

/-- R82: halted with something pending, whatever `ime` is, `halt` is cleared at no cost and the same STEP goes on as
that of a Running core. -/
def Obligations.PendingInterruptWakes : Prop :=
  ∀ s : State, s.halt = true → s.ieReg &&& s.ifReg &&& 0x1F#8 ≠ 0x00#8 →
    ∃ t, exec .step s = .next t ∧ exec .step { s with halt := false } = .next t ∧ step s = .next t

/-- R84, R85, R143: with `ime` true and `k` the pending kind, the STEP is SERVICE(k) and ADVANCE(20) and nothing else, and
returns 20; a halted core wakes into it (R95). -/
def Obligations.PendingInterruptIsServiced : Prop :=
  ∀ (s : State) (k : Kind), s.ime = true → s.pendingKind = some k →
    ∃ u v t, exec (.service k) { s with cyc := 0, halt := false } = .next u ∧
      exec (.advance 20) { u with cyc := 20 } = .next v ∧ t = { v with reply := .cycles 20 } ∧
      exec .step s = .next t ∧ step s = .next t ∧
      t.ime = false ∧ t.halt = false ∧ t.bt = s.bt ∧ t.pc = kindVector k ∧ t.sp = s.sp - 2#16 ∧ t.cyc = 20

/-- R86, R88, R90: when the STEP neither idles nor services (`ime` false, or nothing pending) and the byte at `pc` is not
ESC, it is that primary instruction and then ADVANCE by its cost, which is returned. -/
def Obligations.StepDispatchesPrimary : Prop :=
  ∀ s : State, (s.halt = true → s.ieReg &&& s.ifReg &&& 0x1F#8 ≠ 0x00#8) →
    (s.ime = true → s.ieReg &&& s.ifReg &&& 0x1F#8 = 0x00#8) →
    s.memRead s.pc ≠ Config.esc →
    ∃ t u, exec (.opPrimary (s.memRead s.pc)) { s with cyc := 0, halt := false } = .next t ∧
      exec (.advance t.cyc) t = .next u ∧
      exec .step s = .next { u with reply := .cycles t.cyc } ∧ step s = .next { u with reply := .cycles t.cyc }

/-- R87, R90: the same with ESC at `pc`: the byte after it indexes the extended table. -/
def Obligations.StepDispatchesExtended : Prop :=
  ∀ s : State, (s.halt = true → s.ieReg &&& s.ifReg &&& 0x1F#8 ≠ 0x00#8) →
    (s.ime = true → s.ieReg &&& s.ifReg &&& 0x1F#8 = 0x00#8) →
    s.memRead s.pc = Config.esc →
    ∃ t u, exec (.opExtended (s.memRead (s.pc + 1#16))) { s with cyc := 0, halt := false } = .next t ∧
      exec (.advance t.cyc) t = .next u ∧
      exec .step s = .next { u with reply := .cycles t.cyc } ∧ step s = .next { u with reply := .cycles t.cyc }

/-- The returned values of R91, path by path: a STEP returns its `cyc`, and that is the one cost of the path it took. -/
def Obligations.StepReturnsItsOneCost : Prop :=
  ∀ s t : State, step s = .next t →
    t.reply = .cycles t.cyc ∧
    (s.halt = true ∧ s.ieReg &&& s.ifReg &&& 0x1F#8 = 0x00#8 → t.cyc = 4) ∧
    (s.ime = true ∧ s.ieReg &&& s.ifReg &&& 0x1F#8 ≠ 0x00#8 → t.cyc = 20) ∧
    ((s.halt = true → s.ieReg &&& s.ifReg &&& 0x1F#8 ≠ 0x00#8) →
      (s.ime = true → s.ieReg &&& s.ifReg &&& 0x1F#8 = 0x00#8) →
      (s.memRead s.pc = Config.esc → t.cyc = extCost (s.memRead (s.pc + 1#16))) ∧
      (s.memRead s.pc ≠ Config.esc →
        t.cyc = if t.bt then branchCost (s.memRead s.pc) else baseCost (s.memRead s.pc)))

/-- The frame of `bt` (R89): the idle, service and extended paths leave it as it was; on the extended path, because an
extended operation does not write it (decision D27, log 5). -/
def Obligations.BranchFlagMovesOnPrimaryPathOnly : Prop :=
  ∀ s t : State, step s = .next t →
    ((s.halt = true ∧ s.ieReg &&& s.ifReg &&& 0x1F#8 = 0x00#8) ∨
      (s.ime = true ∧ s.ieReg &&& s.ifReg &&& 0x1F#8 ≠ 0x00#8) ∨ s.memRead s.pc = Config.esc) →
    t.bt = s.bt

/-- What R21 and the decision D6 say of `cyc`, and the model's `reply` (log 14): the values they held before a STEP
are observed by nothing; no operation reads `cyc` (R113, decision D12, log 5). -/
def Obligations.StaleCycleCountIsUnobservable : Prop :=
  ∀ (s : State) (n : Nat) (r : Reply), ∃ t, step s = .next t ∧ step { s with cyc := n, reply := r } = .next t

/-- What R20 says of `bt` between STEPs: two states that differ only in it step to states that differ at most in it. No
extended operation reads it (log 5). -/
def Obligations.StaleBranchFlagIsUnobservable : Prop :=
  ∀ (s : State) (b : Bool), ∃ t u, step s = .next t ∧ step { s with bt := b } = .next u ∧
    { u with bt := t.bt } = t

/-- R96 (b): a request for an enabled kind, with `ime` true and nothing pending before, is serviced by the very next
STEP, Running or Halted. -/
def Obligations.RequestIsServicedByNextStep : Prop :=
  ∀ (k : Kind) (s : State), s.mem.wf = true → s.ime = true → s.ieReg.getLsbD (kindIndex k) = true →
    s.ieReg &&& s.ifReg &&& 0x1F#8 = 0x00#8 →
    ∃ u t, exec (.reqInt k) s = .next u ∧ step u = .next t ∧
      t.pc = kindVector k ∧ t.ime = false ∧ t.halt = false ∧ t.sp = s.sp - 2#16 ∧ t.reply = .cycles 20

/-- "A halted core with `IE & 0x1F = 0` never wakes" (R148): after any number of STEPs it is halted still, with its registers
and `ime` as they were, whatever the timer requested meanwhile. -/
def Obligations.HaltedWithNothingEnabledNeverWakes : Prop :=
  ∀ (n : Nat) (s : State), s.halt = true → s.ieReg &&& 0x1F#8 = 0x00#8 →
    ∃ t, Host.Core.run core n s = .next t ∧ t.halt = true ∧ t.ieReg = s.ieReg ∧ t.pc = s.pc ∧ t.sp = s.sp ∧
      t.af = s.af ∧ t.bc = s.bc ∧ t.de = s.de ∧ t.hl = s.hl ∧ t.ime = s.ime ∧ t.bt = s.bt

/-! ### Invariants -/

/-- Every STEP keeps the invariant: memory canonical (the model's form), both accumulators remainders (R23), the low
flags nibble zero (R116, which the model keeps the free entries inside; log 3). That an operation leaves `cacc` is
decision D12 (log 5). -/
def Obligations.StepKeepsInvariant : Prop :=
  ∀ s t : State, s.Inv → step s = .next t → t.Inv

/-- A run, any finite list of STEPs and REQ_INTs (R99, R175), from any state with the invariant completes, and keeps
it (logs 3, 5, 17). -/
def Obligations.RunsCompleteAndKeepInvariant : Prop :=
  ∀ (ms : List Move) (s : State), s.Inv → ∃ t, runMoves ms s = .next t ∧ t.Inv

/-- R116: every entry of both tables preserves `af[3:0] = 0`, and so it is in every state that a run from power-on
reaches, for every canonical RESET_MEM. -/
def Obligations.EveryOperationKeepsFlagsNibble : Prop :=
  (∀ (b : Byte) (v : View), v.af &&& 0x000F#16 = 0#16 →
    (primOp b v).1.af &&& 0x000F#16 = 0#16 ∧ (extOp b v).af &&& 0x000F#16 = 0#16) ∧
  (∀ (ms : List Move) (resetIme : Bool) (resetMem : Memory) (t : State), resetMem.wf = true →
    runMoves ms (State.powerOn resetIme resetMem) = .next t → t.af &&& 0x000F#16 = 0#16)

/-! ### The two instruction classes -/

/-- R88: `pc` goes past the opcode, `bt` is cleared, PrimOp[b] runs on that state, and BranchCost[b] is added if it set `bt`,
else BaseCost[b]. That `dacc` and `cacc` stay, and that `cyc` moves by the cost alone, is not R88 but R113, the spec's own
decision D12 and the model's reading (log 5); the model's `reply` stays too (log 14). The tables are those in force
(log 2). -/
def Obligations.PrimaryClassMeaning : Prop :=
  ∀ (b : Byte) (s : State),
    let out := primOp b { s with pc := s.pc + 1#16, bt := false }.view
    exec (.opPrimary b) s = .next { s with
      af := out.1.af, bc := out.1.bc, de := out.1.de, hl := out.1.hl, sp := out.1.sp, pc := out.1.pc
      ime := out.1.ime, halt := out.1.halt, bt := out.2, mem := s.mem.writeAll out.1.writes
      cyc := s.cyc + (if out.2 then branchCost b else baseCost b) }

/-- A stale `bt` selects no cost (R88) and no behaviour: a primary dispatch does not depend on it. -/
def Obligations.PrimaryDispatchIgnoresStaleBranchFlag : Prop :=
  ∀ (b : Byte) (s : State) (x : Bool), ∃ t, exec (.opPrimary b) s = .next t ∧
    exec (.opPrimary b) { s with bt := x } = .next t

/-- R87, with `pc` past both bytes before the operation runs (decision D2, the model's choice, log 6): ExtOp[x] runs,
ExtCost[x] is added, and `bt` is neither cleared nor read. That the operation leaves `bt`, `dacc` and `cacc` is D12
and D27 (log 5). -/
def Obligations.ExtendedClassMeaning : Prop :=
  ∀ (x : Byte) (s : State),
    let out := extOp x { s with pc := s.pc + 2#16 }.view
    exec (.opExtended x) s = .next { s with
      af := out.af, bc := out.bc, de := out.de, hl := out.hl, sp := out.sp, pc := out.pc
      ime := out.ime, halt := out.halt, mem := s.mem.writeAll out.writes, cyc := s.cyc + extCost x }

/-- The fixture rows are entries of the two tables (log 2): a class instruction with a fixture's byte does what that
row does, its operand being the byte after the opcode (R114). -/
def Obligations.FixtureRowsAreTableEntries : Prop :=
  ∀ s : State, ∃ t1 t2 t3 t4 t5 t6 t7 t8 t9 t10 t11 : State,
    (exec (.opPrimary 0x00#8) s = .next t1 ∧ exec .nop s = .next t1) ∧
    (exec (.opPrimary 0x76#8) s = .next t2 ∧ exec .halt s = .next t2) ∧
    (exec (.opPrimary 0xFB#8) s = .next t3 ∧ exec .ei s = .next t3) ∧
    (exec (.opPrimary 0xF3#8) s = .next t4 ∧ exec .di s = .next t4) ∧
    (exec (.opPrimary 0x3E#8) s = .next t5 ∧ exec (.ldAN (s.memRead (s.pc + 1#16))) s = .next t5) ∧
    (exec (.opPrimary 0xE0#8) s = .next t6 ∧ exec (.ldhNA (s.memRead (s.pc + 1#16))) s = .next t6) ∧
    (exec (.opPrimary 0x3D#8) s = .next t7 ∧ exec .decA s = .next t7) ∧
    (exec (.opPrimary 0x20#8) s = .next t8 ∧ exec (.jrNzE (s.memRead (s.pc + 1#16))) s = .next t8) ∧
    (exec (.opPrimary 0x18#8) s = .next t9 ∧ exec (.jrE (s.memRead (s.pc + 1#16))) s = .next t9) ∧
    (exec (.opPrimary 0xD9#8) s = .next t10 ∧ exec .reti s = .next t10) ∧
    (exec (.opExtended 0x37#8) s = .next t11 ∧ exec .swapA s = .next t11)

/-! ### The fixture table T0 (spec/95_test_vectors.md section 3; log 2) -/

/-- NOP, HALT, EI and DI: `pc` past the opcode, `bt` clear, 4 cycles; HALT sets `halt`, EI and DI set and clear `ime`;
nothing else. -/
def Obligations.ControlFixturesResult : Prop :=
  ∀ s : State,
    exec .nop s = .next { s with pc := s.pc + 1#16, bt := false, cyc := s.cyc + 4 } ∧
    exec .halt s = .next { s with pc := s.pc + 1#16, bt := false, cyc := s.cyc + 4, halt := true } ∧
    exec .ei s = .next { s with pc := s.pc + 1#16, bt := false, cyc := s.cyc + 4, ime := true } ∧
    exec .di s = .next { s with pc := s.pc + 1#16, bt := false, cyc := s.cyc + 4, ime := false }

/-- LD A,n: the accumulator takes n, the flags stay, 8 cycles; nothing else. -/
def Obligations.LoadAccumulatorResult : Prop :=
  ∀ (n : Byte) (s : State), ∃ t, exec (.ldAN n) s = .next t ∧
    hi t.af = n ∧ lo t.af = lo s.af ∧
    t = { s with af := t.af, pc := s.pc + 2#16, bt := false, cyc := s.cyc + 8 }

/-- LDH (n),A: the byte at 0xFF00 + n takes the accumulator, every other byte stays, 12 cycles; nothing else. -/
def Obligations.StoreHighPageResult : Prop :=
  ∀ (n : Byte) (s : State), s.mem.wf = true → ∃ t, exec (.ldhNA n) s = .next t ∧
    t.memRead (BitVec.ofNat 16 (0xFF00 + n.toNat)) = hi s.af ∧
    (∀ a : Word, a ≠ BitVec.ofNat 16 (0xFF00 + n.toNat) → t.memRead a = s.memRead a) ∧
    t = { s with mem := t.mem, pc := s.pc + 2#16, bt := false, cyc := s.cyc + 12 }

/-- DEC A: the accumulator goes down by one, modulo 256; zero of the result, subtract set, half-carry when the low
nibble was 0, carry kept, the low nibble of the flags 0 (bit numbers D22, log 18); 4 cycles; nothing else. -/
def Obligations.DecrementAccumulatorResult : Prop :=
  ∀ s : State, ∃ t, exec .decA s = .next t ∧
    hi t.af = hi s.af - 1#8 ∧
    (lo t.af).getLsbD 7 = decide (hi s.af = 0x01#8) ∧
    (lo t.af).getLsbD 6 = true ∧
    (lo t.af).getLsbD 5 = decide ((hi s.af).toNat % 16 = 0) ∧
    (lo t.af).getLsbD 4 = (lo s.af).getLsbD 4 ∧
    (∀ n < 4, (lo t.af).getLsbD n = false) ∧
    t = { s with af := t.af, pc := s.pc + 1#16, bt := false, cyc := s.cyc + 4 }

/-- JR NZ,e and JR e: the target is the address after the operand plus the signed displacement, modulo 65536. JR NZ is
taken when the zero flag (bit 7, D22, log 18) is clear, and then sets `bt` and costs 12, else 8; JR is always taken and costs 12. Nothing
else changes. -/
def Obligations.RelativeJumpResult : Prop :=
  ∀ (e : Byte) (s : State),
    ((lo s.af).getLsbD 7 = false → exec (.jrNzE e) s = .next { s with
      pc := BitVec.ofInt 16 (s.pc.toNat + 2 + e.toInt), bt := true, cyc := s.cyc + 12 }) ∧
    ((lo s.af).getLsbD 7 = true → exec (.jrNzE e) s = .next { s with
      pc := s.pc + 2#16, bt := false, cyc := s.cyc + 8 }) ∧
    exec (.jrE e) s = .next { s with
      pc := BitVec.ofInt 16 (s.pc.toNat + 2 + e.toInt), bt := true, cyc := s.cyc + 12 }

/-- RETI: `pc` is popped, low byte at `sp` and high byte at `sp + 1` (D3, log 7), `sp` goes up by two, `ime` is
set, 16 cycles; nothing else. -/
def Obligations.ReturnFromInterruptResult : Prop :=
  ∀ s : State, ∃ t, exec .reti s = .next t ∧
    lo t.pc = s.memRead s.sp ∧ hi t.pc = s.memRead (s.sp + 1#16) ∧
    t = { s with pc := t.pc, sp := s.sp + 2#16, ime := true, bt := false, cyc := s.cyc + 16 }

/-- SWAP A: the nibbles of the accumulator are exchanged, zero of the result, every other flag bit clear (bit
numbers D22, log 18), `pc` past two bytes (D2, log 6), `bt` untouched, 8 cycles; nothing else. -/
def Obligations.SwapAccumulatorResult : Prop :=
  ∀ s : State, ∃ t, exec .swapA s = .next t ∧
    (∀ n < 4, (hi t.af).getLsbD n = (hi s.af).getLsbD (n + 4) ∧
      (hi t.af).getLsbD (n + 4) = (hi s.af).getLsbD n) ∧
    (lo t.af).getLsbD 7 = decide (hi s.af = 0x00#8) ∧
    (∀ n < 7, (lo t.af).getLsbD n = false) ∧
    t = { s with af := t.af, pc := s.pc + 2#16, cyc := s.cyc + 8 }

/-! ### Under any tables (R3): the five tables are an argument, and no entry of them is fixed -/

/-- `exec` and `step` run under one value of the argument: `tables` (the model's choice, log 2), which is T0's eleven
entries laid over free tables. At every other byte its entries are Config's free values, kept inside R116 (log 3). -/
def Obligations.StepIsStepWithTheTablesInForce : Prop :=
  (∀ s : State, step s = stepWith tables s ∧ exec .step s = stepWith tables s) ∧
  (∀ (b : Byte) (v : View), (∀ r : Fixture, b ≠ r.byte) →
    primOp b v = (keepFlags v (Config.primOp b v).1, (Config.primOp b v).2) ∧
    baseCost b = Config.baseCost b ∧ branchCost b = Config.branchCost b) ∧
  (∀ (x : Byte) (v : View), x ≠ swapByte →
    extOp x v = keepFlags v (Config.extOp x v) ∧ extCost x = Config.extCost x)

/-- R88, R90, for every table: a STEP that neither idles nor services, on a byte b other than ESC, clears `bt`, runs
PrimOp[b] with `pc` past the opcode, takes BranchCost[b] or BaseCost[b] as the operation set `bt` or not, and then runs
ADVANCE by that cost and returns it. That the operation leaves the accumulators is decision D12 (log 5). -/
def Obligations.AnyTablesDispatchPrimary : Prop :=
  ∀ (T : Tables) (s : State), (s.halt = true → s.ieReg &&& s.ifReg &&& 0x1F#8 ≠ 0x00#8) →
    (s.ime = true → s.ieReg &&& s.ifReg &&& 0x1F#8 = 0x00#8) →
    s.memRead s.pc ≠ Config.esc →
    let b := s.memRead s.pc
    let out := T.primOp b { s with pc := s.pc + 1#16, halt := false }.view
    let cost := if out.2 then T.branchCost b else T.baseCost b
    ∃ u, exec (.advance cost) { s with
        af := out.1.af, bc := out.1.bc, de := out.1.de, hl := out.1.hl, sp := out.1.sp, pc := out.1.pc
        ime := out.1.ime, halt := out.1.halt, bt := out.2, mem := s.mem.writeAll out.1.writes, cyc := cost } = .next u ∧
      stepWith T s = .next { u with reply := .cycles cost }

/-- R87, R90, for every table: the same on ESC, with the byte after it as the index x: ExtOp[x] with `pc` past both bytes
(decision D2, log 6), ExtCost[x], and `bt` left as it was (D27, log 5). -/
def Obligations.AnyTablesDispatchExtended : Prop :=
  ∀ (T : Tables) (s : State), (s.halt = true → s.ieReg &&& s.ifReg &&& 0x1F#8 ≠ 0x00#8) →
    (s.ime = true → s.ieReg &&& s.ifReg &&& 0x1F#8 = 0x00#8) →
    s.memRead s.pc = Config.esc →
    let x := s.memRead (s.pc + 1#16)
    let out := T.extOp x { s with pc := s.pc + 2#16, halt := false }.view
    ∃ u, exec (.advance (T.extCost x)) { s with
        af := out.af, bc := out.bc, de := out.de, hl := out.hl, sp := out.sp, pc := out.pc
        ime := out.ime, halt := out.halt, mem := s.mem.writeAll out.writes, cyc := T.extCost x } = .next u ∧
      stepWith T s = .next { u with reply := .cycles (T.extCost x) }

/-- What a STEP takes from its tables (R4, R91): on the idle and the service path nothing, else only the entries at the
fetched index. Two tables that agree there give the same STEP. -/
def Obligations.OnlyTheFetchedEntryMatters : Prop :=
  ∀ (T U : Tables) (s : State),
    ((s.halt = true ∧ s.ieReg &&& s.ifReg &&& 0x1F#8 = 0x00#8) ∨
      (s.ime = true ∧ s.ieReg &&& s.ifReg &&& 0x1F#8 ≠ 0x00#8) ∨
      (s.memRead s.pc = Config.esc ∧ T.extOp (s.memRead (s.pc + 1#16)) = U.extOp (s.memRead (s.pc + 1#16)) ∧
        T.extCost (s.memRead (s.pc + 1#16)) = U.extCost (s.memRead (s.pc + 1#16))) ∨
      (s.memRead s.pc ≠ Config.esc ∧ T.primOp (s.memRead s.pc) = U.primOp (s.memRead s.pc) ∧
        T.baseCost (s.memRead s.pc) = U.baseCost (s.memRead s.pc) ∧
        T.branchCost (s.memRead s.pc) = U.branchCost (s.memRead s.pc))) →
    ∃ t, stepWith T s = .next t ∧ stepWith U s = .next t

/-- Every STEP completes under every table, and under every table that obeys R116 it keeps the invariant. That an operation
leaves `cacc` is decision D12 (log 5). -/
def Obligations.AnyTablesStepKeepsInvariant : Prop :=
  ∀ (T : Tables) (s : State), ∃ t, stepWith T s = .next t ∧ (KeepsFlags T → s.Inv → t.Inv)

/-- R116 and R23 along every run from power-on, under every table that obeys R116, for every RESET_IME and every canonical
RESET_MEM: the run completes, in a state with the invariant. The accumulators' bounds rest on decision D7 (log 10). -/
def Obligations.AnyTablesRunsFromPowerOnKeepInvariant : Prop :=
  ∀ (T : Tables) (ms : List Move) (resetIme : Bool) (resetMem : Memory), KeepsFlags T → resetMem.wf = true →
    ∃ t, runWith T ms (State.powerOn resetIme resetMem) = .next t ∧ t.Inv
end

