-- ==== Sys2Proof/Laws/Decode.lean ====
section
/-!
SUPPORT. The fixture bytes: the table lookup finds a row at its own byte and only there, and none is ESC.
-/

namespace Sys2Proof

@[simp] theorem fixtureAt_byte (r : Fixture) : Fixture.at? r.byte = some r := by
  cases r <;> decide

theorem byte_of_fixtureAt {b : Byte} {r : Fixture} (h : Fixture.at? b = some r) : b = r.byte := by
  have := List.find?_some h
  exact (eq_of_beq this).symm

@[simp] theorem fixture_byte_ne_esc (r : Fixture) : r.byte ≠ Config.esc := by
  cases r <;> decide

@[simp] theorem swapByte_ne_esc : swapByte ≠ Config.esc := by decide

theorem decode_esc (x : Byte) (rest : List Byte) :
    decode (Config.esc :: x :: rest) = .ok (if x = swapByte then .swapA else .opExtended x, rest) := by
  simp [decode, decodeExtended]

theorem decode_primary {b : Byte} (h : b ≠ Config.esc) (rest : List Byte) :
    decode (b :: rest) = decodePrimary b rest := by
  simp [decode, h]

/-- Two bytes always decode: the second is there for whatever the first needs. -/
theorem decodePrimary_total (b c : Byte) (rest : List Byte) :
    ∃ i r, decodePrimary b (c :: rest) = .ok (i, r) := by
  unfold decodePrimary withOperand
  split <;> exact ⟨_, _, rfl⟩

theorem decode_total (b c : Byte) (rest : List Byte) : ∃ i r, decode (b :: c :: rest) = .ok (i, r) := by
  by_cases h : b = Config.esc
  · subst h
    exact ⟨_, _, decode_esc c rest⟩
  · rw [decode_primary h]
    exact decodePrimary_total b c rest

end Sys2Proof
end

