-- ==== Sys2Proof/Laws/State.lean ====
section
/-!
SUPPORT. One lemma per field per update of the state, each true by unfolding, so that no proof unfolds a record
update again. What a bus write does to `mem` is Laws/Memory.lean's, so `memWrite_mem` is no simp lemma.
-/

namespace Sys2Proof.Machine

/-! ### `memWrite` -/

@[simp] theorem memWrite_af (s : State) (a : Word) (v : Byte) : (s.memWrite a v).af = s.af := rfl
@[simp] theorem memWrite_bc (s : State) (a : Word) (v : Byte) : (s.memWrite a v).bc = s.bc := rfl
@[simp] theorem memWrite_de (s : State) (a : Word) (v : Byte) : (s.memWrite a v).de = s.de := rfl
@[simp] theorem memWrite_hl (s : State) (a : Word) (v : Byte) : (s.memWrite a v).hl = s.hl := rfl
@[simp] theorem memWrite_sp (s : State) (a : Word) (v : Byte) : (s.memWrite a v).sp = s.sp := rfl
@[simp] theorem memWrite_pc (s : State) (a : Word) (v : Byte) : (s.memWrite a v).pc = s.pc := rfl
@[simp] theorem memWrite_ime (s : State) (a : Word) (v : Byte) : (s.memWrite a v).ime = s.ime := rfl
@[simp] theorem memWrite_halt (s : State) (a : Word) (v : Byte) : (s.memWrite a v).halt = s.halt := rfl
@[simp] theorem memWrite_bt (s : State) (a : Word) (v : Byte) : (s.memWrite a v).bt = s.bt := rfl
@[simp] theorem memWrite_cyc (s : State) (a : Word) (v : Byte) : (s.memWrite a v).cyc = s.cyc := rfl
@[simp] theorem memWrite_dacc (s : State) (a : Word) (v : Byte) : (s.memWrite a v).dacc = s.dacc := rfl
@[simp] theorem memWrite_cacc (s : State) (a : Word) (v : Byte) : (s.memWrite a v).cacc = s.cacc := rfl
theorem memWrite_mem (s : State) (a : Word) (v : Byte) : (s.memWrite a v).mem = s.mem.write a.toNat v := rfl
@[simp] theorem memWrite_reply (s : State) (a : Word) (v : Byte) : (s.memWrite a v).reply = s.reply := rfl

/-! ### `charge` -/

@[simp] theorem charge_af (s : State) (c : Nat) : (s.charge c).af = s.af := rfl
@[simp] theorem charge_bc (s : State) (c : Nat) : (s.charge c).bc = s.bc := rfl
@[simp] theorem charge_de (s : State) (c : Nat) : (s.charge c).de = s.de := rfl
@[simp] theorem charge_hl (s : State) (c : Nat) : (s.charge c).hl = s.hl := rfl
@[simp] theorem charge_sp (s : State) (c : Nat) : (s.charge c).sp = s.sp := rfl
@[simp] theorem charge_pc (s : State) (c : Nat) : (s.charge c).pc = s.pc := rfl
@[simp] theorem charge_ime (s : State) (c : Nat) : (s.charge c).ime = s.ime := rfl
@[simp] theorem charge_halt (s : State) (c : Nat) : (s.charge c).halt = s.halt := rfl
@[simp] theorem charge_bt (s : State) (c : Nat) : (s.charge c).bt = s.bt := rfl
@[simp] theorem charge_cyc (s : State) (c : Nat) : (s.charge c).cyc = s.cyc + c := rfl
@[simp] theorem charge_dacc (s : State) (c : Nat) : (s.charge c).dacc = s.dacc := rfl
@[simp] theorem charge_cacc (s : State) (c : Nat) : (s.charge c).cacc = s.cacc := rfl
@[simp] theorem charge_mem (s : State) (c : Nat) : (s.charge c).mem = s.mem := rfl
@[simp] theorem charge_reply (s : State) (c : Nat) : (s.charge c).reply = s.reply := rfl

/-! ### `answer` -/

@[simp] theorem answer_af (s : State) (r : Reply) : (s.answer r).af = s.af := rfl
@[simp] theorem answer_bc (s : State) (r : Reply) : (s.answer r).bc = s.bc := rfl
@[simp] theorem answer_de (s : State) (r : Reply) : (s.answer r).de = s.de := rfl
@[simp] theorem answer_hl (s : State) (r : Reply) : (s.answer r).hl = s.hl := rfl
@[simp] theorem answer_sp (s : State) (r : Reply) : (s.answer r).sp = s.sp := rfl
@[simp] theorem answer_pc (s : State) (r : Reply) : (s.answer r).pc = s.pc := rfl
@[simp] theorem answer_ime (s : State) (r : Reply) : (s.answer r).ime = s.ime := rfl
@[simp] theorem answer_halt (s : State) (r : Reply) : (s.answer r).halt = s.halt := rfl
@[simp] theorem answer_bt (s : State) (r : Reply) : (s.answer r).bt = s.bt := rfl
@[simp] theorem answer_cyc (s : State) (r : Reply) : (s.answer r).cyc = s.cyc := rfl
@[simp] theorem answer_dacc (s : State) (r : Reply) : (s.answer r).dacc = s.dacc := rfl
@[simp] theorem answer_cacc (s : State) (r : Reply) : (s.answer r).cacc = s.cacc := rfl
@[simp] theorem answer_mem (s : State) (r : Reply) : (s.answer r).mem = s.mem := rfl
@[simp] theorem answer_reply (s : State) (r : Reply) : (s.answer r).reply = r := rfl

/-! ### `fetched` -/

@[simp] theorem fetched_af (s : State) : (s.fetched).af = s.af := rfl
@[simp] theorem fetched_bc (s : State) : (s.fetched).bc = s.bc := rfl
@[simp] theorem fetched_de (s : State) : (s.fetched).de = s.de := rfl
@[simp] theorem fetched_hl (s : State) : (s.fetched).hl = s.hl := rfl
@[simp] theorem fetched_sp (s : State) : (s.fetched).sp = s.sp := rfl
@[simp] theorem fetched_pc (s : State) : (s.fetched).pc = s.pc + 1#16 := rfl
@[simp] theorem fetched_ime (s : State) : (s.fetched).ime = s.ime := rfl
@[simp] theorem fetched_halt (s : State) : (s.fetched).halt = s.halt := rfl
@[simp] theorem fetched_bt (s : State) : (s.fetched).bt = s.bt := rfl
@[simp] theorem fetched_cyc (s : State) : (s.fetched).cyc = s.cyc := rfl
@[simp] theorem fetched_dacc (s : State) : (s.fetched).dacc = s.dacc := rfl
@[simp] theorem fetched_cacc (s : State) : (s.fetched).cacc = s.cacc := rfl
@[simp] theorem fetched_mem (s : State) : (s.fetched).mem = s.mem := rfl
@[simp] theorem fetched_reply (s : State) : (s.fetched).reply = s.reply := rfl

/-! ### `started` -/

@[simp] theorem started_af (s : State) : (s.started).af = s.af := rfl
@[simp] theorem started_bc (s : State) : (s.started).bc = s.bc := rfl
@[simp] theorem started_de (s : State) : (s.started).de = s.de := rfl
@[simp] theorem started_hl (s : State) : (s.started).hl = s.hl := rfl
@[simp] theorem started_sp (s : State) : (s.started).sp = s.sp := rfl
@[simp] theorem started_pc (s : State) : (s.started).pc = s.pc := rfl
@[simp] theorem started_ime (s : State) : (s.started).ime = s.ime := rfl
@[simp] theorem started_halt (s : State) : (s.started).halt = false := rfl
@[simp] theorem started_bt (s : State) : (s.started).bt = s.bt := rfl
@[simp] theorem started_cyc (s : State) : (s.started).cyc = 0 := rfl
@[simp] theorem started_dacc (s : State) : (s.started).dacc = s.dacc := rfl
@[simp] theorem started_cacc (s : State) : (s.started).cacc = s.cacc := rfl
@[simp] theorem started_mem (s : State) : (s.started).mem = s.mem := rfl
@[simp] theorem started_reply (s : State) : (s.started).reply = s.reply := rfl

/-! ### `takeEffect` -/

@[simp] theorem takeEffect_af (s : State) (e : Effect) : (s.takeEffect e).af = e.af := rfl
@[simp] theorem takeEffect_bc (s : State) (e : Effect) : (s.takeEffect e).bc = e.bc := rfl
@[simp] theorem takeEffect_de (s : State) (e : Effect) : (s.takeEffect e).de = e.de := rfl
@[simp] theorem takeEffect_hl (s : State) (e : Effect) : (s.takeEffect e).hl = e.hl := rfl
@[simp] theorem takeEffect_sp (s : State) (e : Effect) : (s.takeEffect e).sp = e.sp := rfl
@[simp] theorem takeEffect_pc (s : State) (e : Effect) : (s.takeEffect e).pc = e.pc := rfl
@[simp] theorem takeEffect_ime (s : State) (e : Effect) : (s.takeEffect e).ime = e.ime := rfl
@[simp] theorem takeEffect_halt (s : State) (e : Effect) : (s.takeEffect e).halt = e.halt := rfl
@[simp] theorem takeEffect_bt (s : State) (e : Effect) : (s.takeEffect e).bt = s.bt := rfl
@[simp] theorem takeEffect_cyc (s : State) (e : Effect) : (s.takeEffect e).cyc = s.cyc := rfl
@[simp] theorem takeEffect_dacc (s : State) (e : Effect) : (s.takeEffect e).dacc = s.dacc := rfl
@[simp] theorem takeEffect_cacc (s : State) (e : Effect) : (s.takeEffect e).cacc = s.cacc := rfl
@[simp] theorem takeEffect_mem (s : State) (e : Effect) : (s.takeEffect e).mem = s.mem.writeAll e.writes := rfl
@[simp] theorem takeEffect_reply (s : State) (e : Effect) : (s.takeEffect e).reply = s.reply := rfl

/-! ### `powerOn` -/

@[simp] theorem powerOn_af (i : Bool) (m : Memory) : (State.powerOn i m).af = 0x01B0#16 := rfl
@[simp] theorem powerOn_bc (i : Bool) (m : Memory) : (State.powerOn i m).bc = 0x0013#16 := rfl
@[simp] theorem powerOn_de (i : Bool) (m : Memory) : (State.powerOn i m).de = 0x00D8#16 := rfl
@[simp] theorem powerOn_hl (i : Bool) (m : Memory) : (State.powerOn i m).hl = 0x014D#16 := rfl
@[simp] theorem powerOn_sp (i : Bool) (m : Memory) : (State.powerOn i m).sp = 0xFFFE#16 := rfl
@[simp] theorem powerOn_pc (i : Bool) (m : Memory) : (State.powerOn i m).pc = 0x0100#16 := rfl
@[simp] theorem powerOn_ime (i : Bool) (m : Memory) : (State.powerOn i m).ime = i := rfl
@[simp] theorem powerOn_halt (i : Bool) (m : Memory) : (State.powerOn i m).halt = false := rfl
@[simp] theorem powerOn_bt (i : Bool) (m : Memory) : (State.powerOn i m).bt = false := rfl
@[simp] theorem powerOn_cyc (i : Bool) (m : Memory) : (State.powerOn i m).cyc = 0 := rfl
@[simp] theorem powerOn_dacc (i : Bool) (m : Memory) : (State.powerOn i m).dacc = 0 := rfl
@[simp] theorem powerOn_cacc (i : Bool) (m : Memory) : (State.powerOn i m).cacc = 0 := rfl
@[simp] theorem powerOn_mem (i : Bool) (m : Memory) : (State.powerOn i m).mem = m := rfl
@[simp] theorem powerOn_reply (i : Bool) (m : Memory) : (State.powerOn i m).reply = .nothing := rfl

/-! ### `push` -/

@[simp] theorem push_af (w : Word) (s : State) : (push w s).af = s.af := rfl
@[simp] theorem push_bc (w : Word) (s : State) : (push w s).bc = s.bc := rfl
@[simp] theorem push_de (w : Word) (s : State) : (push w s).de = s.de := rfl
@[simp] theorem push_hl (w : Word) (s : State) : (push w s).hl = s.hl := rfl
@[simp] theorem push_sp (w : Word) (s : State) : (push w s).sp = s.sp - 2#16 := rfl
@[simp] theorem push_pc (w : Word) (s : State) : (push w s).pc = s.pc := rfl
@[simp] theorem push_ime (w : Word) (s : State) : (push w s).ime = s.ime := rfl
@[simp] theorem push_halt (w : Word) (s : State) : (push w s).halt = s.halt := rfl
@[simp] theorem push_bt (w : Word) (s : State) : (push w s).bt = s.bt := rfl
@[simp] theorem push_cyc (w : Word) (s : State) : (push w s).cyc = s.cyc := rfl
@[simp] theorem push_dacc (w : Word) (s : State) : (push w s).dacc = s.dacc := rfl
@[simp] theorem push_cacc (w : Word) (s : State) : (push w s).cacc = s.cacc := rfl
@[simp] theorem push_mem (w : Word) (s : State) : (push w s).mem = ((s.memWrite (s.sp - 1#16) (hi w)).memWrite (s.sp - 2#16) (lo w)).mem := rfl
@[simp] theorem push_reply (w : Word) (s : State) : (push w s).reply = s.reply := rfl

/-! ### `requestInterrupt` -/

@[simp] theorem requestInterrupt_af (k : Kind) (s : State) : (requestInterrupt k s).af = s.af := rfl
@[simp] theorem requestInterrupt_bc (k : Kind) (s : State) : (requestInterrupt k s).bc = s.bc := rfl
@[simp] theorem requestInterrupt_de (k : Kind) (s : State) : (requestInterrupt k s).de = s.de := rfl
@[simp] theorem requestInterrupt_hl (k : Kind) (s : State) : (requestInterrupt k s).hl = s.hl := rfl
@[simp] theorem requestInterrupt_sp (k : Kind) (s : State) : (requestInterrupt k s).sp = s.sp := rfl
@[simp] theorem requestInterrupt_pc (k : Kind) (s : State) : (requestInterrupt k s).pc = s.pc := rfl
@[simp] theorem requestInterrupt_ime (k : Kind) (s : State) : (requestInterrupt k s).ime = s.ime := rfl
@[simp] theorem requestInterrupt_halt (k : Kind) (s : State) : (requestInterrupt k s).halt = s.halt := rfl
@[simp] theorem requestInterrupt_bt (k : Kind) (s : State) : (requestInterrupt k s).bt = s.bt := rfl
@[simp] theorem requestInterrupt_cyc (k : Kind) (s : State) : (requestInterrupt k s).cyc = s.cyc := rfl
@[simp] theorem requestInterrupt_dacc (k : Kind) (s : State) : (requestInterrupt k s).dacc = s.dacc := rfl
@[simp] theorem requestInterrupt_cacc (k : Kind) (s : State) : (requestInterrupt k s).cacc = s.cacc := rfl
@[simp] theorem requestInterrupt_mem (k : Kind) (s : State) : (requestInterrupt k s).mem = (s.memWrite ifAddr (s.ifReg ||| kindMask k)).mem := rfl
@[simp] theorem requestInterrupt_reply (k : Kind) (s : State) : (requestInterrupt k s).reply = s.reply := rfl

/-! ### `serviceInterrupt` -/

@[simp] theorem serviceInterrupt_af (k : Kind) (s : State) : (serviceInterrupt k s).af = s.af := rfl
@[simp] theorem serviceInterrupt_bc (k : Kind) (s : State) : (serviceInterrupt k s).bc = s.bc := rfl
@[simp] theorem serviceInterrupt_de (k : Kind) (s : State) : (serviceInterrupt k s).de = s.de := rfl
@[simp] theorem serviceInterrupt_hl (k : Kind) (s : State) : (serviceInterrupt k s).hl = s.hl := rfl
@[simp] theorem serviceInterrupt_sp (k : Kind) (s : State) : (serviceInterrupt k s).sp = s.sp - 2#16 := rfl
@[simp] theorem serviceInterrupt_pc (k : Kind) (s : State) : (serviceInterrupt k s).pc = kindVector k := rfl
@[simp] theorem serviceInterrupt_ime (k : Kind) (s : State) : (serviceInterrupt k s).ime = false := rfl
@[simp] theorem serviceInterrupt_halt (k : Kind) (s : State) : (serviceInterrupt k s).halt = s.halt := rfl
@[simp] theorem serviceInterrupt_bt (k : Kind) (s : State) : (serviceInterrupt k s).bt = s.bt := rfl
@[simp] theorem serviceInterrupt_cyc (k : Kind) (s : State) : (serviceInterrupt k s).cyc = s.cyc := rfl
@[simp] theorem serviceInterrupt_dacc (k : Kind) (s : State) : (serviceInterrupt k s).dacc = s.dacc := rfl
@[simp] theorem serviceInterrupt_cacc (k : Kind) (s : State) : (serviceInterrupt k s).cacc = s.cacc := rfl
@[simp] theorem serviceInterrupt_mem (k : Kind) (s : State) :
    (serviceInterrupt k s).mem = (push s.pc (s.memWrite ifAddr (s.ifReg &&& ~~~kindMask k))).mem := rfl
@[simp] theorem serviceInterrupt_reply (k : Kind) (s : State) : (serviceInterrupt k s).reply = s.reply := rfl

/-! ### `incrementDiv` -/

@[simp] theorem incrementDiv_af (s : State) : (incrementDiv s).af = s.af := rfl
@[simp] theorem incrementDiv_bc (s : State) : (incrementDiv s).bc = s.bc := rfl
@[simp] theorem incrementDiv_de (s : State) : (incrementDiv s).de = s.de := rfl
@[simp] theorem incrementDiv_hl (s : State) : (incrementDiv s).hl = s.hl := rfl
@[simp] theorem incrementDiv_sp (s : State) : (incrementDiv s).sp = s.sp := rfl
@[simp] theorem incrementDiv_pc (s : State) : (incrementDiv s).pc = s.pc := rfl
@[simp] theorem incrementDiv_ime (s : State) : (incrementDiv s).ime = s.ime := rfl
@[simp] theorem incrementDiv_halt (s : State) : (incrementDiv s).halt = s.halt := rfl
@[simp] theorem incrementDiv_bt (s : State) : (incrementDiv s).bt = s.bt := rfl
@[simp] theorem incrementDiv_cyc (s : State) : (incrementDiv s).cyc = s.cyc := rfl
@[simp] theorem incrementDiv_dacc (s : State) : (incrementDiv s).dacc = s.dacc := rfl
@[simp] theorem incrementDiv_cacc (s : State) : (incrementDiv s).cacc = s.cacc := rfl
@[simp] theorem incrementDiv_mem (s : State) : (incrementDiv s).mem = (s.memWrite divAddr (s.divReg + 1#8)).mem := rfl
@[simp] theorem incrementDiv_reply (s : State) : (incrementDiv s).reply = s.reply := rfl

/-! ### `view` -/

@[simp] theorem view_af (s : State) : s.view.af = s.af := rfl
@[simp] theorem view_bc (s : State) : s.view.bc = s.bc := rfl
@[simp] theorem view_de (s : State) : s.view.de = s.de := rfl
@[simp] theorem view_hl (s : State) : s.view.hl = s.hl := rfl
@[simp] theorem view_sp (s : State) : s.view.sp = s.sp := rfl
@[simp] theorem view_pc (s : State) : s.view.pc = s.pc := rfl
@[simp] theorem view_ime (s : State) : s.view.ime = s.ime := rfl
@[simp] theorem view_halt (s : State) : s.view.halt = s.halt := rfl
@[simp] theorem view_read (s : State) (a : Word) : s.view.read a = s.memRead a := rfl

/-! ### `unchanged` -/

@[simp] theorem unchanged_af (v : View) : (unchanged v).af = v.af := rfl
@[simp] theorem unchanged_bc (v : View) : (unchanged v).bc = v.bc := rfl
@[simp] theorem unchanged_de (v : View) : (unchanged v).de = v.de := rfl
@[simp] theorem unchanged_hl (v : View) : (unchanged v).hl = v.hl := rfl
@[simp] theorem unchanged_sp (v : View) : (unchanged v).sp = v.sp := rfl
@[simp] theorem unchanged_pc (v : View) : (unchanged v).pc = v.pc := rfl
@[simp] theorem unchanged_ime (v : View) : (unchanged v).ime = v.ime := rfl
@[simp] theorem unchanged_halt (v : View) : (unchanged v).halt = v.halt := rfl
@[simp] theorem unchanged_writes (v : View) : (unchanged v).writes = [] := rfl

end Sys2Proof.Machine
end

