-- ==== Sys2Proof/Laws/Memory.lean ====
section
/-!
SUPPORT. Memory: a read after a write, the canonical form, and that it makes equal contents equal lists.
-/

namespace Sys2Proof.Machine

/-! ### Reading after writing -/

theorem wfFrom_cons {n a : Nat} {v : Byte} {m : Memory} :
    Memory.wfFrom n ((a, v) :: m) = true ↔
      n ≤ a ∧ a < 65536 ∧ v ≠ Config.unlisted ∧ Memory.wfFrom (a + 1) m = true := by
  simp [Memory.wfFrom, and_assoc]

theorem wfFrom_mono {n k : Nat} (h : k ≤ n) {m : Memory} (hm : Memory.wfFrom n m = true) :
    Memory.wfFrom k m = true := by
  cases m with
  | nil => rfl
  | cons c m =>
    rw [wfFrom_cons] at hm ⊢
    exact ⟨h.trans hm.1, hm.2⟩

/-- Below the first listed address everything is unlisted. -/
theorem read_below {n a : Nat} {m : Memory} (hm : Memory.wfFrom n m = true) (h : a < n) :
    m.read a = Config.unlisted := by
  induction m generalizing n with
  | nil => rfl
  | cons c m ih =>
    rw [wfFrom_cons] at hm
    have hne : a ≠ c.1 := by omega
    simpa [Memory.read, hne] using ih hm.2.2.2 (by omega)

theorem read_write_other {a b : Nat} (m : Memory) (v : Byte) (h : b ≠ a) :
    (m.write a v).read b = m.read b := by
  induction m with
  | nil => by_cases hv : v = Config.unlisted <;> simp [Memory.write, Memory.read, hv, h]
  | cons c m ih =>
    simp only [Memory.write]
    split
    · split <;> simp [Memory.read, h]
    · split
      · subst_vars
        split <;> simp [Memory.read, h]
      · simp [Memory.read, ih]

/-- A read gives the byte last written there (R46), in any list of canonical form. -/
theorem read_write_same {n a : Nat} {m : Memory} (hm : Memory.wfFrom n m = true) (v : Byte) :
    (m.write a v).read a = v := by
  induction m generalizing n with
  | nil => by_cases hv : v = Config.unlisted <;> simp [Memory.write, Memory.read, hv]
  | cons c m ih =>
    rw [wfFrom_cons] at hm
    simp only [Memory.write]
    split
    · rename_i hlt
      split
      · subst_vars
        have hne : a ≠ c.1 := by omega
        simpa [Memory.read, hne] using read_below hm.2.2.2 (by omega)
      · simp [Memory.read]
    · split
      · subst_vars
        split
        · subst_vars
          exact read_below hm.2.2.2 (by omega)
        · simp [Memory.read]
      · rename_i hne
        simpa [Memory.read, hne] using ih hm.2.2.2

/-! ### The canonical form -/

theorem write_keeps_wfFrom {n a : Nat} {m : Memory} (hm : Memory.wfFrom n m = true) (hn : n ≤ a)
    (ha : a < 65536) (v : Byte) : Memory.wfFrom n (m.write a v) = true := by
  induction m generalizing n with
  | nil =>
    by_cases hv : v = Config.unlisted
    · simp [Memory.write, hv, Memory.wfFrom]
    · simp [Memory.write, hv, Memory.wfFrom, hn, ha]
  | cons c m ih =>
    obtain ⟨b, w⟩ := c
    rw [wfFrom_cons] at hm
    obtain ⟨h1, h2, h3, h4⟩ := hm
    simp only [Memory.write]
    split
    · split
      · exact wfFrom_cons.2 ⟨h1, h2, h3, h4⟩
      · exact wfFrom_cons.2 ⟨hn, ha, ‹_›, wfFrom_cons.2 ⟨by omega, h2, h3, h4⟩⟩
    · split
      · subst_vars
        split
        · exact wfFrom_mono (by omega) h4
        · exact wfFrom_cons.2 ⟨h1, ha, ‹_›, h4⟩
      · exact wfFrom_cons.2 ⟨h1, h2, h3, ih h4 (by omega)⟩

@[simp] theorem wf_nil : Memory.wf [] = true := rfl

/-- Every bus write keeps the canonical form. -/
theorem write_keeps_wf {m : Memory} (hm : m.wf = true) (a : Word) (v : Byte) :
    (m.write a.toNat v).wf = true :=
  write_keeps_wfFrom hm (Nat.zero_le _) a.isLt v

/-- So does every list of bus writes. -/
theorem writeAll_keeps_wf {m : Memory} (hm : m.wf = true) (ws : List (Word × Byte)) :
    (m.writeAll ws).wf = true := by
  induction ws generalizing m with
  | nil => exact hm
  | cons w ws ih => exact ih (write_keeps_wf hm w.1 w.2)

/-- In canonical form, memories that read alike at every address are the same list. -/
theorem eq_of_reads_from {n : Nat} {m k : Memory} (hm : Memory.wfFrom n m = true)
    (hk : Memory.wfFrom n k = true) (h : ∀ a, m.read a = k.read a) : m = k := by
  induction m generalizing n k with
  | nil =>
    cases k with
    | nil => rfl
    | cons c k =>
      rw [wfFrom_cons] at hk
      have := h c.1
      simp [Memory.read] at this
      exact absurd this.symm hk.2.2.1
  | cons c m ih =>
    obtain ⟨a, v⟩ := c
    have hm' := wfFrom_cons.1 hm
    cases k with
    | nil =>
      have := h a
      simp [Memory.read] at this
      exact absurd this hm'.2.2.1
    | cons d k =>
      obtain ⟨b, w⟩ := d
      have hk' := wfFrom_cons.1 hk
      have hab : a = b := by
        rcases Nat.lt_trichotomy a b with hlt | heq | hgt
        · have h1 := h a
          have h2 : Memory.read k a = Config.unlisted := read_below hk'.2.2.2 (by omega)
          have hne : a ≠ b := by omega
          simp [Memory.read, hne, h2] at h1
          exact absurd h1 hm'.2.2.1
        · exact heq
        · have h1 := h b
          have h2 : Memory.read m b = Config.unlisted := read_below hm'.2.2.2 (by omega)
          have hne : b ≠ a := by omega
          simp [Memory.read, hne, h2] at h1
          exact absurd h1.symm hk'.2.2.1
      subst hab
      have hv : v = w := by simpa [Memory.read] using h a
      subst hv
      have htail : m = k := by
        refine ih hm'.2.2.2 hk'.2.2.2 fun x => ?_
        by_cases hx : x = a
        · subst hx
          rw [read_below hm'.2.2.2 (by omega), read_below hk'.2.2.2 (by omega)]
        · simpa [Memory.read, hx] using h x
      rw [htail]

/-! ### The bus (R40, R46) -/

theorem memRead_memWrite_same {s : State} (h : s.mem.wf = true) (a : Word) (v : Byte) :
    (s.memWrite a v).memRead a = v :=
  read_write_same h v

theorem memRead_memWrite_other (s : State) {a b : Word} (v : Byte) (h : b ≠ a) :
    (s.memWrite a v).memRead b = s.memRead b :=
  read_write_other _ _ fun e => h (BitVec.eq_of_toNat_eq e)

theorem memWrite_keeps_wf {s : State} (h : s.mem.wf = true) (a : Word) (v : Byte) :
    (s.memWrite a v).mem.wf = true :=
  write_keeps_wf h a v

/-- A bus read depends on memory alone. -/
theorem memRead_congr {s t : State} (h : s.mem = t.mem) (a : Word) : s.memRead a = t.memRead a := by
  simp [State.memRead, h]

/-- In canonical form, states whose bus reads agree hold the same memory. -/
theorem mem_eq_of_memRead {s t : State} (hs : s.mem.wf = true) (ht : t.mem.wf = true)
    (h : ∀ a, s.memRead a = t.memRead a) : s.mem = t.mem := by
  have out {n : Nat} {m : Memory} : Memory.wfFrom n m = true → ∀ a, 65536 ≤ a → m.read a = Config.unlisted := by
    induction m generalizing n with
    | nil => intros; rfl
    | cons c m ih =>
      intro hm a ha
      rw [wfFrom_cons] at hm
      have hne : a ≠ c.1 := by omega
      simpa [Memory.read, hne] using ih hm.2.2.2 a ha
  refine eq_of_reads_from hs ht fun a => ?_
  by_cases ha : a < 65536
  · simpa [State.memRead, Nat.mod_eq_of_lt ha] using h (BitVec.ofNat 16 a)
  · rw [out hs a (by omega), out ht a (by omega)]

end Sys2Proof.Machine
end

