-- ==== Sys2Proof/Laws/Ops.lean ====
section
/-!
SUPPORT. One lemma for each shared operation that says all it does: the register halves, a request, the pending test,
the push, the service entry, the pop, and that each keeps the canonical form of memory.
-/

namespace Sys2Proof.Machine

/-! ### Halves (R11) -/

@[simp] theorem hi_pair (h l : Byte) : hi (pair h l) = h := by
  simp only [hi, pair]
  ext i hi
  simp only [BitVec.getElem_extractLsb', BitVec.getLsbD_append]
  split
  · omega
  · simp [BitVec.getLsbD_eq_getElem hi]

@[simp] theorem lo_pair (h l : Byte) : lo (pair h l) = l := by
  simp only [lo, pair]
  ext i hi
  simp only [BitVec.getElem_extractLsb', Nat.zero_add, BitVec.getLsbD_append, hi, if_true]
  exact BitVec.getLsbD_eq_getElem hi

@[simp] theorem pair_hi_lo (w : Word) : pair (hi w) (lo w) = w := by
  simp only [hi, lo, pair]
  ext i hi
  simp only [BitVec.getElem_append, BitVec.getElem_extractLsb']
  split
  · simp [BitVec.getLsbD_eq_getElem hi]
  · rw [Nat.add_sub_of_le (by omega), BitVec.getLsbD_eq_getElem hi]

@[simp] theorem hi_setHi (w : Word) (v : Byte) : hi (setHi w v) = v := hi_pair _ _
@[simp] theorem lo_setHi (w : Word) (v : Byte) : lo (setHi w v) = lo w := lo_pair _ _
@[simp] theorem hi_setLo (w : Word) (v : Byte) : hi (setLo w v) = hi w := hi_pair _ _
@[simp] theorem lo_setLo (w : Word) (v : Byte) : lo (setLo w v) = v := lo_pair _ _

/-! ### Addresses -/

theorem sp_sub_one_ne_sub_two (w : Word) : w - 1#16 ≠ w - 2#16 := by
  bv_omega

/-! ### Requests (R130) -/

theorem requestInterrupt_keeps_wf {s : State} (h : s.mem.wf = true) (k : Kind) :
    (requestInterrupt k s).mem.wf = true :=
  memWrite_keeps_wf h _ _

theorem requestInterrupt_ifReg {s : State} (h : s.mem.wf = true) (k : Kind) :
    (requestInterrupt k s).ifReg = s.ifReg ||| kindMask k :=
  memRead_memWrite_same h _ _

theorem requestInterrupt_memRead (k : Kind) (s : State) {a : Word} (ha : a ≠ ifAddr) :
    (requestInterrupt k s).memRead a = s.memRead a :=
  memRead_memWrite_other _ _ ha

/-! ### The pending test (R132) -/

/-- Bit `k` of `IE & IF & 0x1F`. -/
theorem pendingBits_kind (s : State) (k : Kind) :
    (s.pendingBits &&& kindMask k == 0x00#8) =
      !(s.ieReg.getLsbD (kindIndex k) && s.ifReg.getLsbD (kindIndex k)) := by
  simp only [State.pendingBits]
  generalize s.ieReg = e
  generalize s.ifReg = f
  have hb (x : Byte) (n : Nat) (hn : n < 8) : (x &&& 1#8 <<< n == 0#8) = !x.getLsbD n := by
    interval_cases n <;> revert x <;> decide
  cases k <;> simp only [kindMask, kindIndex]
  · simpa using hb (e &&& f &&& 0x1F#8) 0 (by omega)
  · simpa using hb (e &&& f &&& 0x1F#8) 1 (by omega)
  · simpa using hb (e &&& f &&& 0x1F#8) 2 (by omega)
  · simpa using hb (e &&& f &&& 0x1F#8) 3 (by omega)
  · simpa using hb (e &&& f &&& 0x1F#8) 4 (by omega)

/-- A masked byte is zero when none of its five bits is set. -/
theorem masked_eq_zero_iff (x : Byte) :
    x &&& 0x1F#8 = 0x00#8 ↔ ∀ n < 5, x.getLsbD n = false := by
  revert x; decide

/-- The highest-priority kind with a property, as nested tests. -/
theorem pendingKind_eq (s : State) :
    s.pendingKind =
      if s.ieReg.getLsbD 0 && s.ifReg.getLsbD 0 then some .vblank
      else if s.ieReg.getLsbD 1 && s.ifReg.getLsbD 1 then some .lcdstat
      else if s.ieReg.getLsbD 2 && s.ifReg.getLsbD 2 then some .timer
      else if s.ieReg.getLsbD 3 && s.ifReg.getLsbD 3 then some .serial
      else if s.ieReg.getLsbD 4 && s.ifReg.getLsbD 4 then some .joypad
      else none := by
  unfold State.pendingKind kindsByPriority
  simp only [List.find?_cons, pendingBits_kind, Bool.not_not, kindIndex, List.find?_nil]
  generalize (s.ieReg.getLsbD 0 && s.ifReg.getLsbD 0) = b0
  generalize (s.ieReg.getLsbD 1 && s.ifReg.getLsbD 1) = b1
  generalize (s.ieReg.getLsbD 2 && s.ifReg.getLsbD 2) = b2
  generalize (s.ieReg.getLsbD 3 && s.ifReg.getLsbD 3) = b3
  generalize (s.ieReg.getLsbD 4 && s.ifReg.getLsbD 4) = b4
  cases b0 <;> cases b1 <;> cases b2 <;> cases b3 <;> cases b4 <;> rfl

/-- Nothing is pending exactly when `IE & IF & 0x1F` is zero. -/
theorem pendingKind_eq_none (s : State) : s.pendingKind = none ↔ s.pendingBits = 0x00#8 := by
  have five : (∀ n < 5, (s.ieReg &&& s.ifReg).getLsbD n = false) ↔
      (s.ieReg &&& s.ifReg).getLsbD 0 = false ∧ (s.ieReg &&& s.ifReg).getLsbD 1 = false ∧
      (s.ieReg &&& s.ifReg).getLsbD 2 = false ∧ (s.ieReg &&& s.ifReg).getLsbD 3 = false ∧
      (s.ieReg &&& s.ifReg).getLsbD 4 = false := by
    constructor
    · exact fun h => ⟨h 0 (by omega), h 1 (by omega), h 2 (by omega), h 3 (by omega), h 4 (by omega)⟩
    · rintro ⟨h0, h1, h2, h3, h4⟩ n hn
      interval_cases n <;> assumption
  rw [State.pendingBits, masked_eq_zero_iff, five, pendingKind_eq]
  simp only [BitVec.getLsbD_and]
  generalize (s.ieReg.getLsbD 0 && s.ifReg.getLsbD 0) = b0
  generalize (s.ieReg.getLsbD 1 && s.ifReg.getLsbD 1) = b1
  generalize (s.ieReg.getLsbD 2 && s.ifReg.getLsbD 2) = b2
  generalize (s.ieReg.getLsbD 3 && s.ifReg.getLsbD 3) = b3
  generalize (s.ieReg.getLsbD 4 && s.ifReg.getLsbD 4) = b4
  cases b0 <;> cases b1 <;> cases b2 <;> cases b3 <;> cases b4 <;> decide

/-! ### The push and the service entry (R140, R142) -/

theorem push_memRead_high {s : State} (h : s.mem.wf = true) (w : Word) :
    (push w s).memRead (s.sp - 1#16) = hi w := by
  have : (push w s).memRead (s.sp - 1#16) =
      ((s.memWrite (s.sp - 1#16) (hi w)).memWrite (s.sp - 2#16) (lo w)).memRead (s.sp - 1#16) := rfl
  rw [this, memRead_memWrite_other _ _ (sp_sub_one_ne_sub_two _), memRead_memWrite_same h]

theorem push_memRead_low {s : State} (h : s.mem.wf = true) (w : Word) :
    (push w s).memRead (s.sp - 2#16) = lo w :=
  memRead_memWrite_same (memWrite_keeps_wf h _ _) _ _

theorem push_memRead_other (s : State) (w : Word) {a : Word} (h1 : a ≠ s.sp - 1#16)
    (h2 : a ≠ s.sp - 2#16) : (push w s).memRead a = s.memRead a := by
  have : (push w s).memRead a =
      ((s.memWrite (s.sp - 1#16) (hi w)).memWrite (s.sp - 2#16) (lo w)).memRead a := rfl
  rw [this, memRead_memWrite_other _ _ h2, memRead_memWrite_other _ _ h1]

theorem push_keeps_wf {s : State} (h : s.mem.wf = true) (w : Word) : (push w s).mem.wf = true :=
  memWrite_keeps_wf (memWrite_keeps_wf h _ _) _ _

theorem serviceInterrupt_keeps_wf {s : State} (h : s.mem.wf = true) (k : Kind) :
    (serviceInterrupt k s).mem.wf = true := by
  rw [serviceInterrupt_mem]
  exact push_keeps_wf (s := s.memWrite ifAddr _) (memWrite_keeps_wf h _ _) _

/-- Every byte after a service entry: the pushed `pc`, or else IF less the request, or else as before. -/
theorem serviceInterrupt_memRead {s : State} (h : s.mem.wf = true) (k : Kind) (a : Word) :
    (serviceInterrupt k s).memRead a =
      if a = s.sp - 2#16 then lo s.pc
      else if a = s.sp - 1#16 then hi s.pc
      else if a = ifAddr then s.ifReg &&& ~~~kindMask k
      else s.memRead a := by
  have hc : (s.memWrite ifAddr (s.ifReg &&& ~~~kindMask k)).mem.wf = true := memWrite_keeps_wf h _ _
  have e : (serviceInterrupt k s).memRead a = (push s.pc (s.memWrite ifAddr (s.ifReg &&& ~~~kindMask k))).memRead a :=
    rfl
  rw [e]
  split
  · subst_vars
    exact push_memRead_low hc _
  · split
    · subst_vars
      exact push_memRead_high hc _
    · rename_i h2 h1
      rw [push_memRead_other (s.memWrite ifAddr _) _ h1 h2]
      split
      · subst_vars
        exact memRead_memWrite_same h _ _
      · rename_i hi
        exact memRead_memWrite_other _ _ hi

/-- The pop is the inverse of the push (R120). -/
theorem popped_push {s : State} (h : s.mem.wf = true) (w : Word) : popped (push w s).view = w := by
  have h1 : s.sp - 2#16 + 1#16 = s.sp - 1#16 := by
    bv_omega
  simp [popped, h1, push_memRead_high h, push_memRead_low h]

end Sys2Proof.Machine
end

