-- ==== Sys2Proof/Laws/Timer.lean ====
section
/-!
SUPPORT. What the timer's pieces do: repetition, one crossing of each channel, the channels' frames, and that they
keep the canonical form of memory.
-/

namespace Sys2Proof.Machine

/-! ### Repetition -/

@[simp] theorem repeatTimes_zero (f : State → State) (s : State) : repeatTimes 0 f s = s := rfl

@[simp] theorem repeatTimes_succ (n : Nat) (f : State → State) (s : State) :
    repeatTimes (n + 1) f s = repeatTimes n f (f s) := rfl

/-- What every crossing keeps, any number of them keeps. -/
theorem repeatTimes_keeps {P : State → Prop} {f : State → State} (h : ∀ s, P s → P (f s)) (n : Nat)
    {s : State} (hs : P s) : P (repeatTimes n f s) := by
  induction n generalizing s with
  | zero => exact hs
  | succ n ih => exact ih (h s hs)

/-- What no crossing changes, no number of them changes. -/
theorem repeatTimes_same {α : Type} {g : State → α} {f : State → State} (h : ∀ s, g (f s) = g s) (n : Nat)
    (s : State) : g (repeatTimes n f s) = g s := by
  induction n generalizing s with
  | zero => rfl
  | succ n ih => rw [repeatTimes_succ, ih, h]

theorem repeatTimes_add (m n : Nat) (f : State → State) (s : State) :
    repeatTimes (m + n) f s = repeatTimes n f (repeatTimes m f s) := by
  induction m generalizing s with
  | zero => simp
  | succ m ih => simpa [Nat.succ_add] using ih (f s)

/-- A change that each crossing passes over can be made before or after all of them. -/
theorem repeatTimes_comm {g f : State → State} {P : State → Prop} (hf : ∀ s, P s → P (f s))
    (h : ∀ s, P s → f (g s) = g (f s)) (n : Nat) {s : State} (hs : P s) :
    repeatTimes n f (g s) = g (repeatTimes n f s) := by
  induction n generalizing s with
  | zero => rfl
  | succ n ih => rw [repeatTimes_succ, h s hs, ih (hf s hs), repeatTimes_succ]

/-- What touches memory alone touches memory alone any number of times. -/
theorem repeatTimes_frame {f : State → State} (h : ∀ s, f s = { s with mem := (f s).mem }) (n : Nat) (s : State) :
    repeatTimes n f s = { s with mem := (repeatTimes n f s).mem } := by
  have hg := repeatTimes_same (f := f) (g := fun u : State => { u with mem := [] })
    (fun u => by rw [h u]) n s
  generalize repeatTimes n f s = t at hg ⊢
  cases t
  cases s
  simp only [State.mk.injEq] at hg ⊢
  simpa using hg

/-! ### One crossing -/

theorem incrementDiv_keeps_wf {s : State} (h : s.mem.wf = true) : (incrementDiv s).mem.wf = true :=
  memWrite_keeps_wf h _ _

theorem incrementDiv_divReg {s : State} (h : s.mem.wf = true) : (incrementDiv s).divReg = s.divReg + 1#8 :=
  memRead_memWrite_same h _ _

theorem incrementDiv_memRead (s : State) {a : Word} (h : a ≠ divAddr) :
    (incrementDiv s).memRead a = s.memRead a :=
  memRead_memWrite_other _ _ h

/-- A divider crossing touches memory alone. -/
theorem incrementDiv_frame (s : State) : incrementDiv s = { s with mem := (incrementDiv s).mem } := rfl

theorem incrementTima_keeps_wf {s : State} (h : s.mem.wf = true) : (incrementTima s).mem.wf = true := by
  unfold incrementTima
  split
  · exact requestInterrupt_keeps_wf (memWrite_keeps_wf h _ _) _
  · exact memWrite_keeps_wf h _ _

theorem incrementTima_of_overflow {s : State} (h : s.mem.wf = true) (ht : s.timaReg = 0xFF#8) :
    (incrementTima s).timaReg = s.tmaReg ∧ (incrementTima s).ifReg = s.ifReg ||| 0x04#8 := by
  have hw : (s.memWrite timaAddr s.tmaReg).mem.wf = true := memWrite_keeps_wf h _ _
  rw [incrementTima, if_pos ht]
  constructor
  · exact (requestInterrupt_memRead _ _ (by decide)).trans (memRead_memWrite_same h _ _)
  · rw [requestInterrupt_ifReg hw]
    exact congrArg (· ||| kindMask .timer) (memRead_memWrite_other s _ (by decide))

theorem incrementTima_of_no_overflow {s : State} (h : s.mem.wf = true) (ht : s.timaReg ≠ 0xFF#8) :
    (incrementTima s).timaReg = s.timaReg + 1#8 ∧ (incrementTima s).ifReg = s.ifReg := by
  rw [incrementTima, if_neg ht]
  exact ⟨memRead_memWrite_same h _ _, memRead_memWrite_other s _ (by decide)⟩

theorem incrementTima_memRead (s : State) {a : Word} (h1 : a ≠ timaAddr) (h2 : a ≠ ifAddr) :
    (incrementTima s).memRead a = s.memRead a := by
  unfold incrementTima
  split
  · rw [requestInterrupt_memRead _ _ h2, memRead_memWrite_other _ _ h1]
  · exact memRead_memWrite_other _ _ h1

/-- A counter crossing touches memory alone. -/
theorem incrementTima_frame (s : State) : incrementTima s = { s with mem := (incrementTima s).mem } := by
  unfold incrementTima
  split <;> rfl

/-! ### Fields that a counter crossing leaves -/

@[simp] theorem incrementTima_af (s : State) : (incrementTima s).af = s.af := by
  rw [incrementTima_frame]
@[simp] theorem incrementTima_bc (s : State) : (incrementTima s).bc = s.bc := by
  rw [incrementTima_frame]
@[simp] theorem incrementTima_de (s : State) : (incrementTima s).de = s.de := by
  rw [incrementTima_frame]
@[simp] theorem incrementTima_hl (s : State) : (incrementTima s).hl = s.hl := by
  rw [incrementTima_frame]
@[simp] theorem incrementTima_sp (s : State) : (incrementTima s).sp = s.sp := by
  rw [incrementTima_frame]
@[simp] theorem incrementTima_pc (s : State) : (incrementTima s).pc = s.pc := by
  rw [incrementTima_frame]
@[simp] theorem incrementTima_ime (s : State) : (incrementTima s).ime = s.ime := by
  rw [incrementTima_frame]
@[simp] theorem incrementTima_halt (s : State) : (incrementTima s).halt = s.halt := by
  rw [incrementTima_frame]
@[simp] theorem incrementTima_bt (s : State) : (incrementTima s).bt = s.bt := by
  rw [incrementTima_frame]
@[simp] theorem incrementTima_cyc (s : State) : (incrementTima s).cyc = s.cyc := by
  rw [incrementTima_frame]
@[simp] theorem incrementTima_dacc (s : State) : (incrementTima s).dacc = s.dacc := by
  rw [incrementTima_frame]
@[simp] theorem incrementTima_cacc (s : State) : (incrementTima s).cacc = s.cacc := by
  rw [incrementTima_frame]
@[simp] theorem incrementTima_reply (s : State) : (incrementTima s).reply = s.reply := by
  rw [incrementTima_frame]

/-! ### The channels -/

/-- The divider channel changes its accumulator and memory alone. -/
theorem advanceDivider_frame (c : Nat) (s : State) :
    advanceDivider c s =
      { s with dacc := (s.dacc + c) % 256, mem := (advanceDivider c s).mem } :=
  repeatTimes_frame incrementDiv_frame _ _

/-- The counter channel changes its accumulator and memory alone. -/
theorem advanceCounter_frame (c : Nat) (s : State) :
    advanceCounter c s =
      { s with cacc := (advanceCounter c s).cacc, mem := (advanceCounter c s).mem } := by
  unfold advanceCounter
  split
  · simp only
    conv_lhs => rw [repeatTimes_frame incrementTima_frame]
    conv_rhs => rw [repeatTimes_frame incrementTima_frame]
  · rfl

/-- The counter's accumulator after an ADVANCE (R152, R153). -/
theorem advanceCounter_cacc (c : Nat) (s : State) :
    (advanceCounter c s).cacc =
      if tacEnabled s.tacReg then (s.cacc + c) % tacThreshold s.tacReg else s.cacc := by
  unfold advanceCounter
  split
  · exact repeatTimes_same (g := State.cacc) (fun s => by rw [incrementTima_frame]) _ _
  · rfl

/-- ADVANCE changes the two accumulators and memory alone (R150). -/
theorem advanceTimer_frame (c : Nat) (s : State) :
    advanceTimer c s =
      { s with
        dacc := (advanceTimer c s).dacc, cacc := (advanceTimer c s).cacc, mem := (advanceTimer c s).mem } := by
  unfold advanceTimer
  conv_lhs => rw [advanceCounter_frame, advanceDivider_frame]
  conv_rhs => rw [advanceCounter_frame, advanceDivider_frame]

theorem advanceDivider_memRead (c : Nat) (s : State) {a : Word} (h : a ≠ divAddr) :
    (advanceDivider c s).memRead a = s.memRead a :=
  repeatTimes_same (g := fun t => t.memRead a) (fun t => incrementDiv_memRead t h) _ _

theorem advanceCounter_memRead (c : Nat) (s : State) {a : Word} (h1 : a ≠ timaAddr) (h2 : a ≠ ifAddr) :
    (advanceCounter c s).memRead a = s.memRead a := by
  unfold advanceCounter
  split
  · exact repeatTimes_same (g := fun t => t.memRead a) (fun t => incrementTima_memRead t h1 h2) _ _
  · rfl

/-- Of memory ADVANCE writes DIV, TIMA and IF alone (R24). -/
theorem advanceTimer_memRead (c : Nat) (s : State) {a : Word} (h1 : a ≠ divAddr) (h2 : a ≠ timaAddr)
    (h3 : a ≠ ifAddr) : (advanceTimer c s).memRead a = s.memRead a := by
  rw [advanceTimer, advanceCounter_memRead _ _ h2 h3, advanceDivider_memRead _ _ h1]

theorem advanceDivider_keeps_wf (c : Nat) {s : State} (h : s.mem.wf = true) :
    (advanceDivider c s).mem.wf = true :=
  repeatTimes_keeps (P := fun t => t.mem.wf = true) (fun _ => incrementDiv_keeps_wf) _ h

theorem advanceCounter_keeps_wf (c : Nat) {s : State} (h : s.mem.wf = true) :
    (advanceCounter c s).mem.wf = true := by
  unfold advanceCounter
  split
  · exact repeatTimes_keeps (P := fun t => t.mem.wf = true) (fun _ => incrementTima_keeps_wf) _ h
  · exact h

theorem advanceTimer_keeps_wf (c : Nat) {s : State} (h : s.mem.wf = true) :
    (advanceTimer c s).mem.wf = true :=
  advanceCounter_keeps_wf c (advanceDivider_keeps_wf c h)

/-- The threshold is one of the four of R154. -/
theorem tacThreshold_mem (tac : Byte) : tacThreshold tac ∈ [1024, 16, 64, 256] := by
  revert tac; decide

theorem tacThreshold_pos (tac : Byte) : 0 < tacThreshold tac := by
  revert tac; decide

theorem tacThreshold_le (tac : Byte) : tacThreshold tac ≤ 1024 := by
  revert tac; decide

/-! ### What ADVANCE does not see -/

/-- A change of fields that the timer neither reads nor writes, made before or after an ADVANCE, is the same. -/
theorem advanceTimer_comm {g : State → State} (hm : ∀ s, (g s).mem = s.mem) (hd : ∀ s, (g s).dacc = s.dacc)
    (hc : ∀ s, (g s).cacc = s.cacc) (setMem : ∀ s m, g { s with mem := m } = { g s with mem := m })
    (setDacc : ∀ s d, g { s with dacc := d } = { g s with dacc := d })
    (setCacc : ∀ s d, g { s with cacc := d } = { g s with cacc := d }) (c : Nat) (s : State) :
    advanceTimer c (g s) = g (advanceTimer c s) := by
  have read (s : State) (a : Word) : (g s).memRead a = s.memRead a := memRead_congr (hm s) a
  have write (s : State) (a : Word) (v : Byte) : (g s).memWrite a v = g (s.memWrite a v) := by
    rw [State.memWrite, hm]
    exact (setMem s _).symm
  have div (s : State) : incrementDiv (g s) = g (incrementDiv s) := by
    rw [incrementDiv, State.divReg, read, write]
    rfl
  have tima (s : State) : incrementTima (g s) = g (incrementTima s) := by
    simp only [incrementTima, requestInterrupt, State.timaReg, State.tmaReg, State.ifReg, read, write]
    exact (apply_ite g _ _ _).symm
  have many {f : State → State} (hf : ∀ s, f (g s) = g (f s)) (n : Nat) (s : State) :
      repeatTimes n f (g s) = g (repeatTimes n f s) :=
    repeatTimes_comm (P := fun _ => True) (fun _ _ => trivial) (fun s _ => hf s) n trivial
  have divider : advanceDivider c (g s) = g (advanceDivider c s) := by
    rw [advanceDivider, hd]
    exact (congrArg _ (setDacc s _).symm).trans (many div _ _)
  have counter (s : State) : advanceCounter c (g s) = g (advanceCounter c s) := by
    have e : (g s).tacReg = s.tacReg := read s _
    rw [advanceCounter, advanceCounter, e, hc, apply_ite g]
    congr 1
    exact (congrArg _ (setCacc s _).symm).trans (many tima _ _)
  rw [advanceTimer, divider, counter, advanceTimer]

theorem advanceTimer_answer (c : Nat) (s : State) (r : Reply) :
    advanceTimer c (s.answer r) = (advanceTimer c s).answer r :=
  advanceTimer_comm (g := fun s => s.answer r) (fun _ => rfl) (fun _ => rfl) (fun _ => rfl) (fun _ _ => rfl)
    (fun _ _ => rfl) (fun _ _ => rfl) c s

theorem advanceTimer_setBt (c : Nat) (s : State) (b : Bool) :
    advanceTimer c { s with bt := b } = { advanceTimer c s with bt := b } :=
  advanceTimer_comm (g := fun s => { s with bt := b }) (fun _ => rfl) (fun _ => rfl) (fun _ => rfl)
    (fun _ _ => rfl) (fun _ _ => rfl) (fun _ _ => rfl) c s

/-! ### Fields that ADVANCE leaves -/

@[simp] theorem advanceTimer_af (c : Nat) (s : State) : (advanceTimer c s).af = s.af := by
  rw [advanceTimer_frame]
@[simp] theorem advanceTimer_bc (c : Nat) (s : State) : (advanceTimer c s).bc = s.bc := by
  rw [advanceTimer_frame]
@[simp] theorem advanceTimer_de (c : Nat) (s : State) : (advanceTimer c s).de = s.de := by
  rw [advanceTimer_frame]
@[simp] theorem advanceTimer_hl (c : Nat) (s : State) : (advanceTimer c s).hl = s.hl := by
  rw [advanceTimer_frame]
@[simp] theorem advanceTimer_sp (c : Nat) (s : State) : (advanceTimer c s).sp = s.sp := by
  rw [advanceTimer_frame]
@[simp] theorem advanceTimer_pc (c : Nat) (s : State) : (advanceTimer c s).pc = s.pc := by
  rw [advanceTimer_frame]
@[simp] theorem advanceTimer_ime (c : Nat) (s : State) : (advanceTimer c s).ime = s.ime := by
  rw [advanceTimer_frame]
@[simp] theorem advanceTimer_halt (c : Nat) (s : State) : (advanceTimer c s).halt = s.halt := by
  rw [advanceTimer_frame]
@[simp] theorem advanceTimer_bt (c : Nat) (s : State) : (advanceTimer c s).bt = s.bt := by
  rw [advanceTimer_frame]
@[simp] theorem advanceTimer_cyc (c : Nat) (s : State) : (advanceTimer c s).cyc = s.cyc := by
  rw [advanceTimer_frame]
@[simp] theorem advanceTimer_reply (c : Nat) (s : State) : (advanceTimer c s).reply = s.reply := by
  rw [advanceTimer_frame]

end Sys2Proof.Machine
end

