-- ==== Sys2Proof/Laws/Engine.lean ====
section
/-!
SUPPORT. STEP path by path (R91): one lemma for each way a STEP goes, and one that lists them all; the tables at the
fixture bytes; what a dispatch leaves.
-/

namespace Sys2Proof.Machine

/-! ### The tables at the fixture's bytes -/

@[simp] theorem primOp_fixture (r : Fixture) (v : View) : primOp r.byte v = fixtureOp r v := by
  simp [primOp, tables, withFixture]

@[simp] theorem baseCost_fixture (r : Fixture) : baseCost r.byte = fixtureBaseCost r := by
  simp [baseCost, tables, withFixture]

@[simp] theorem branchCost_fixture (r : Fixture) : branchCost r.byte = fixtureBranchCost r := by
  simp [branchCost, tables, withFixture]

@[simp] theorem extOp_swap (v : View) : extOp swapByte v = opSwapA v := by
  simp [extOp, tables, withFixture]

@[simp] theorem extCost_swap : extCost swapByte = 8 := by
  simp [extCost, tables, withFixture, swapCost]

/-! ### Tables and R116 -/

/-- `keepFlags` passes an entry that obeys R116 unchanged: the free tables range over every well-formed table. -/
theorem keepFlags_of_contract {v : View} {e : Effect}
    (h : flagsClear v.af = true → flagsClear e.af = true) : keepFlags v e = e := by
  unfold keepFlags
  split
  · rename_i hv
    have he := h hv
    simp only [flagsClear, beq_iff_eq] at he
    have : e.af &&& 0xFFF0#16 = e.af := by
      have hs : e.af &&& 0xFFF0#16 ||| e.af &&& 0x000F#16 = e.af := by
        rw [← BitVec.and_or_distrib_left, show (0xFFF0#16 ||| 0x000F#16 : Word) = BitVec.allOnes 16 by decide]
        exact BitVec.and_allOnes
      rw [he] at hs
      simpa using hs
    rw [this]
  · rfl

/-- Tables that obey R116 pass unchanged: the free tables range over every one of them. -/
theorem lawful_of_keepFlags {T : Tables} (h : KeepsFlags T) : lawful T = T := by
  obtain ⟨p, b, r, e, c⟩ := T
  have hp : (fun x v => (keepFlags v (p x v).1, (p x v).2)) = p :=
    funext fun x => funext fun v => Prod.ext (keepFlags_of_contract (h.1 x v)) rfl
  have he : (fun x v => keepFlags v (e x v)) = e :=
    funext fun x => funext fun v => keepFlags_of_contract (h.2 x v)
  show Tables.mk _ b r _ c = _
  rw [hp, he]

/-- What `keepFlags` is for. -/
theorem flagsClear_keepFlags {v : View} (h : flagsClear v.af = true) (e : Effect) :
    flagsClear (keepFlags v e).af = true := by
  rw [keepFlags, if_pos h]
  show ((e.af &&& 0xFFF0#16) &&& 0x000F#16 == 0#16) = true
  rw [BitVec.and_assoc]
  simp

theorem lawful_keepFlags (T : Tables) : KeepsFlags (lawful T) :=
  ⟨fun _ _ h => flagsClear_keepFlags h _, fun _ _ h => flagsClear_keepFlags h _⟩

/-! ### What a dispatch leaves -/

/-- After a primary dispatch `bt` tells which cost was added (R88). -/
theorem dispatchPrimary_cyc (op : View → Effect × Bool) (base branch : Nat) (s : State) :
    (dispatchPrimary op base branch s).cyc =
      s.cyc + if (dispatchPrimary op base branch s).bt then branch else base := rfl

/-- A primary dispatch does not see a stale `bt` (R88). -/
theorem dispatchPrimary_ignores_bt (op : View → Effect × Bool) (base branch : Nat) (s : State) (x : Bool) :
    dispatchPrimary op base branch { s with bt := x } = dispatchPrimary op base branch s := rfl

/-- An extended dispatch leaves `bt` (R89). -/
theorem dispatchExtended_bt (op : View → Effect) (cost : Nat) (s : State) :
    (dispatchExtended op cost s).bt = s.bt := rfl

theorem dispatchPrimary_keeps_wf {s : State} (h : s.mem.wf = true) (op : View → Effect × Bool)
    (base branch : Nat) : (dispatchPrimary op base branch s).mem.wf = true :=
  writeAll_keeps_wf h _

theorem dispatchExtended_keeps_wf {s : State} (h : s.mem.wf = true) (op : View → Effect) (cost : Nat) :
    (dispatchExtended op cost s).mem.wf = true :=
  writeAll_keeps_wf h _

theorem fetchAndDispatch_esc (T : Tables) {s : State} (h : s.memRead s.pc = Config.esc) :
    fetchAndDispatch T s = runExtended T (s.memRead (s.pc + 1#16)) s := by
  simp [fetchAndDispatch, h]

theorem fetchAndDispatch_primary (T : Tables) {s : State} (h : s.memRead s.pc ≠ Config.esc) :
    fetchAndDispatch T s = runPrimary T (s.memRead s.pc) s := by
  simp [fetchAndDispatch, h]

/-- The fetch path keeps the canonical form of memory, under any tables. -/
theorem fetchAndDispatch_keeps_wf (T : Tables) {s : State} (h : s.mem.wf = true) :
    (fetchAndDispatch T s).mem.wf = true := by
  unfold fetchAndDispatch
  split
  · exact dispatchExtended_keeps_wf h _ _
  · exact dispatchPrimary_keeps_wf h _ _ _

/-- The fetch path leaves the accumulators (R113), under any tables. -/
theorem fetchAndDispatch_cacc (T : Tables) (s : State) : (fetchAndDispatch T s).cacc = s.cacc := by
  unfold fetchAndDispatch
  split <;> rfl

/-- The fetch path keeps the low flags nibble zero, under any tables that obey R116. -/
theorem fetchAndDispatch_keeps_flags {T : Tables} (hT : KeepsFlags T) {s : State} (h : flagsClear s.af = true) :
    flagsClear (fetchAndDispatch T s).af = true := by
  unfold fetchAndDispatch
  split
  · exact hT.2 _ _ h
  · exact hT.1 _ _ h

/-! ### Runs -/

/-- One more step of a run. -/
theorem run_succ {n : Nat} {s t : State} (h : step s = .next t) :
    Host.Core.run core (n + 1) s = Host.Core.run core n t := by
  have general (M : Host.Core) (s t : M.State) (h : M.step s = .next t) : M.run (n + 1) s = M.run n t := by
    simp [Host.Core.run, h]
  exact general core s t h

/-! ### The paths of STEP -/

theorem idles_iff (s : State) :
    s.idles = true ↔ s.halt = true ∧ s.ieReg &&& s.ifReg &&& 0x1F#8 = 0x00#8 := by
  simp [State.idles, State.pendingBits]

theorem serviceKind_eq_none_iff (s : State) :
    s.serviceKind = none ↔ (s.ime = true → s.ieReg &&& s.ifReg &&& 0x1F#8 = 0x00#8) := by
  rw [← State.pendingBits, ← pendingKind_eq_none, State.serviceKind]
  cases s.ime <;> simp

/-- The idle path (R83). -/
theorem engine_of_idles (run : State → Host.Outcome State Fault Refusal) {s : State} (h : s.idles = true) :
    engine run s = .next (finishStep { s with cyc := 4 }) := by
  rw [engine, if_pos h]
  rfl

/-- The service path (R84, R85). -/
theorem engine_of_service (run : State → Host.Outcome State Fault Refusal) {s : State} {k : Kind}
    (h : s.idles = false) (hk : s.serviceKind = some k) :
    engine run s = .next (finishStep { serviceInterrupt k s.started with cyc := 20 }) := by
  rw [engine, if_neg (by simp [h]), hk]
  rfl

/-- The fetch path (R86 to R88). -/
theorem engine_of_fetch (run : State → Host.Outcome State Fault Refusal) {s : State}
    (h : s.idles = false) (hk : s.serviceKind = none) : engine run s = finishRun (run s.started) := by
  rw [engine, if_neg (by simp [h]), hk]

theorem stepWith_of_idles (T : Tables) {s : State} (h : s.idles = true) :
    stepWith T s = .next (finishStep { s with cyc := 4 }) := engine_of_idles _ h

theorem stepWith_of_service (T : Tables) {s : State} {k : Kind} (h : s.idles = false)
    (hk : s.serviceKind = some k) :
    stepWith T s = .next (finishStep { serviceInterrupt k s.started with cyc := 20 }) := engine_of_service _ h hk

theorem stepWith_of_fetch (T : Tables) {s : State} (h : s.idles = false) (hk : s.serviceKind = none) :
    stepWith T s = .next (finishStep (fetchAndDispatch T s.started)) := engine_of_fetch _ h hk

/-- Something to service means the STEP does not idle (R82). -/
theorem not_idles_of_serviceKind {s : State} {k : Kind} (h : s.serviceKind = some k) : s.idles = false := by
  by_contra hi
  have hi' : s.idles = true := by simpa using hi
  have h0 := ((idles_iff s).1 hi').2
  have := (serviceKind_eq_none_iff s).2 fun _ => h0
  simp [this] at h

/-- STEP, all three ways (R91), under any tables. -/
theorem stepWith_cases (T : Tables) (s : State) :
    (s.idles = true ∧ stepWith T s = .next (finishStep { s with cyc := 4 })) ∨
    (∃ k, s.idles = false ∧ s.serviceKind = some k ∧
      stepWith T s = .next (finishStep { serviceInterrupt k s.started with cyc := 20 })) ∨
    (s.idles = false ∧ s.serviceKind = none ∧
      stepWith T s = .next (finishStep (fetchAndDispatch T s.started))) := by
  cases hi : s.idles with
  | true => exact .inl ⟨rfl, stepWith_of_idles T hi⟩
  | false =>
    cases hk : s.serviceKind with
    | some k => exact .inr (.inl ⟨k, rfl, rfl, stepWith_of_service T hi hk⟩)
    | none => exact .inr (.inr ⟨rfl, rfl, stepWith_of_fetch T hi hk⟩)

theorem finishStep_keeps_wf {s : State} (h : s.mem.wf = true) : (finishStep s).mem.wf = true :=
  advanceTimer_keeps_wf _ h

end Sys2Proof.Machine
end

