-- ==== Sys2Proof/Laws/PerInstr.lean ====
section
/-!
SUPPORT. One family, about the instruction as written: how many bytes the core or the fixture gives it (R60), and that
a command has none (R72).
-/

namespace Sys2Proof.Laws

/-- The number of bytes of an instruction: one for format P1, two with an operand byte or in format P2, none for a command. -/
def WordLength.bytes : Instr → Nat
  | .opPrimary _  => 1
  | .opExtended _ => 2
  | .step         => 0
  | .reqInt _     => 0
  | .pending      => 0
  | .service _    => 0
  | .advance _    => 0
  | .nop          => 1
  | .halt         => 1
  | .ei           => 1
  | .di           => 1
  | .ldAN _       => 2
  | .ldhNA _      => 2
  | .decA         => 1
  | .jrNzE _      => 2
  | .jrE _        => 2
  | .reti         => 1
  | .swapA        => 2

/-- The encoding of an instruction has the length of its row, and a row of length 0 has no encoding. -/
def WordLength.Statement (i : Instr) : Prop :=
  ((encode i).getD []).length = WordLength.bytes i ∧ (WordLength.bytes i = 0 ↔ encode i = none)

theorem WordLength.opPrimary (b : Byte) : WordLength.Statement (.opPrimary b) := by
  simp [WordLength.Statement, WordLength.bytes, encode]
theorem WordLength.opExtended (x : Byte) : WordLength.Statement (.opExtended x) := by
  simp [WordLength.Statement, WordLength.bytes, encode]
theorem WordLength.step : WordLength.Statement .step := by
  simp [WordLength.Statement, WordLength.bytes, encode]
theorem WordLength.reqInt (k : Kind) : WordLength.Statement (.reqInt k) := by
  simp [WordLength.Statement, WordLength.bytes, encode]
theorem WordLength.pending : WordLength.Statement .pending := by
  simp [WordLength.Statement, WordLength.bytes, encode]
theorem WordLength.service (k : Kind) : WordLength.Statement (.service k) := by
  simp [WordLength.Statement, WordLength.bytes, encode]
theorem WordLength.advance (c : Nat) : WordLength.Statement (.advance c) := by
  simp [WordLength.Statement, WordLength.bytes, encode]
theorem WordLength.nop : WordLength.Statement .nop := by
  simp [WordLength.Statement, WordLength.bytes, encode]
theorem WordLength.halt : WordLength.Statement .halt := by
  simp [WordLength.Statement, WordLength.bytes, encode]
theorem WordLength.ei : WordLength.Statement .ei := by
  simp [WordLength.Statement, WordLength.bytes, encode]
theorem WordLength.di : WordLength.Statement .di := by
  simp [WordLength.Statement, WordLength.bytes, encode]
theorem WordLength.ldAN (n : Byte) : WordLength.Statement (.ldAN n) := by
  simp [WordLength.Statement, WordLength.bytes, encode]
theorem WordLength.ldhNA (n : Byte) : WordLength.Statement (.ldhNA n) := by
  simp [WordLength.Statement, WordLength.bytes, encode]
theorem WordLength.decA : WordLength.Statement .decA := by
  simp [WordLength.Statement, WordLength.bytes, encode]
theorem WordLength.jrNzE (e : Byte) : WordLength.Statement (.jrNzE e) := by
  simp [WordLength.Statement, WordLength.bytes, encode]
theorem WordLength.jrE (e : Byte) : WordLength.Statement (.jrE e) := by
  simp [WordLength.Statement, WordLength.bytes, encode]
theorem WordLength.reti : WordLength.Statement .reti := by
  simp [WordLength.Statement, WordLength.bytes, encode]
theorem WordLength.swapA : WordLength.Statement .swapA := by
  simp [WordLength.Statement, WordLength.bytes, encode]

end Sys2Proof.Laws
end

