-- ==== Sys2Proof/Tests/Slice0.lean ====
section
/-!
SUPPORT. Tests and witnesses. Every expected result is the spec's: a word written out from spec/opcode_table.json, a
vector (V, Q, T, S) or a program step (P) of spec/95_test_vectors.md, named in each comment. At most two tests
per instruction, each of one step.
-/

namespace Sys2Proof.Tests

open Sys2Proof.Machine

/-! ### Small states -/

/-- Bytes laid over a state. -/
def lay : List (Word × Byte) → State → State
  | [],           s => s
  | (a, v) :: ws, s => lay ws (s.memWrite a v)

/-- The base state of spec/95_test_vectors.md with some bytes laid over it. -/
def base (ws : List (Word × Byte)) : State := lay ws (State.powerOn false [])

/-- The base state in the middle of handling interrupts: `ime` true, IE, IF, `pc` and `sp` given. -/
def serving (ie iff : Byte) (pc sp : Word) : State :=
  { base [(0xFFFF#16, ie), (0xFF0F#16, iff)] with ime := true, pc := pc, sp := sp }

/-- The base state with the four timer registers and the accumulators. -/
def timed (tac tima tma : Byte) (dacc cacc : Nat) : State :=
  { base [(0xFF07#16, tac), (0xFF05#16, tima), (0xFF06#16, tma)] with dacc := dacc, cacc := cacc }

/-- A next state with a property. -/
def ends (o : Host.Outcome State Fault Refusal) (p : State → Bool) : Bool :=
  match o with
  | .next t    => p t
  | .fault _   => false
  | .refused _ => false

/-! ### Ill-formed terms -/

/-- R60: OP_PRIMARY excludes ESC. -/
theorem test_escape_is_no_primary : Instr.wellFormed (.opPrimary 0xCB#8) = false := by decide

/-- Byte 0x00 is written as its row NOP. -/
theorem test_fixture_byte_is_its_row : Instr.wellFormed (.opPrimary 0x00#8) = false := by decide

/-- Second byte 0x37 is written as its row SWAP_A. -/
theorem test_fixture_second_byte_is_its_row : Instr.wellFormed (.opExtended 0x37#8) = false := by decide

/-- A plain primary byte and `ESC ESC` are well formed. -/
theorem test_plain_terms_are_well_formed :
    Instr.wellFormed (.opPrimary 0x47#8) = true ∧ Instr.wellFormed (.opExtended 0xCB#8) = true := by decide

/-! ### Decoding: words from spec/opcode_table.json, bit by bit -/

theorem test_decode_opPrimary : decode [0b01000111#8] = .ok (.opPrimary 0x47#8, []) := rfl
theorem test_decode_opExtended :
    decode [0b11001011#8, 0b01111100#8] = .ok (.opExtended 0x7C#8, []) := rfl
theorem test_decode_nop : decode [0b00000000#8] = .ok (.nop, []) := rfl
theorem test_decode_halt : decode [0b01110110#8] = .ok (.halt, []) := rfl
theorem test_decode_ei : decode [0b11111011#8] = .ok (.ei, []) := rfl
theorem test_decode_di : decode [0b11110011#8] = .ok (.di, []) := rfl
theorem test_decode_ldAN : decode [0b00111110#8, 0b00000101#8] = .ok (.ldAN 0x05#8, []) := rfl
theorem test_decode_ldhNA : decode [0b11100000#8, 0b11111111#8] = .ok (.ldhNA 0xFF#8, []) := rfl
theorem test_decode_decA : decode [0b00111101#8] = .ok (.decA, []) := rfl
theorem test_decode_jrNzE : decode [0b00100000#8, 0b11111101#8] = .ok (.jrNzE 0xFD#8, []) := rfl
theorem test_decode_jrE : decode [0b00011000#8, 0b11111010#8] = .ok (.jrE 0xFA#8, []) := rfl
theorem test_decode_reti : decode [0b11011001#8] = .ok (.reti, []) := rfl
theorem test_decode_swapA : decode [0b11001011#8, 0b00110111#8] = .ok (.swapA, []) := rfl
theorem test_decode_stops_by_name :
    decode [] = .error .noBytes ∧ decode [0xCB#8] = .error .noSecondByte ∧
      decode [0x3E#8] = .error .noOperand := ⟨rfl, rfl, rfl⟩

/-- The rows' words in the table's own numbering. -/
theorem test_table_words :
    decodeTableWord 8 0x47 = some (.opPrimary 0x47#8) ∧ decodeTableWord 16 0x7CCB = some (.opExtended 0x7C#8) ∧
    decodeTableWord 8 0xCB = some (.opExtended 0x00#8) ∧ decodeTableWord 8 0x3E = some (.ldAN 0x00#8) ∧
    decodeTableWord 16 0xCB37 = some .swapA ∧ decodeTableWord 8 0xD9 = some .reti := by decide

/-- A word of the table laid at `pc` runs as the first instruction after reset. -/
theorem test_fetch_word_runs :
    ends (step (State.reset.withFetchWord 16 0x053E))
      (fun t => t.af == 0x05B0#16 && t.pc == 0x0102#16 && t.reply == .cycles 8) = true := by decide

/-! ### The commands -/

/-- Q3. -/
theorem test_reqInt_sets_bit :
    ends (exec (.reqInt .timer) (base [(0xFF0F#16, 0xE0#8)])) (fun t => t.ifReg == 0xE4#8) = true := by decide

/-- Q4. -/
theorem test_reqInt_is_not_counted :
    ends (exec (.reqInt .timer) (base [(0xFF0F#16, 0x04#8)])) (fun t => t.ifReg == 0x04#8) = true := by decide

/-- PENDING with IE = p and every IF bit set. -/
def pendingOf (p : Nat) : Option Kind := (serving (BitVec.ofNat 8 p) 0xFF#8 0#16 0#16).pendingKind

/-- Vector set V, the values 0 to 15 of `IE & IF & 0x1F`, row by row. -/
theorem test_pending_table_low :
    [pendingOf 0, pendingOf 1, pendingOf 2, pendingOf 3, pendingOf 4, pendingOf 5, pendingOf 6, pendingOf 7] =
      [none, some .vblank, some .lcdstat, some .vblank, some .timer, some .vblank, some .lcdstat, some .vblank] ∧
    [pendingOf 8, pendingOf 9, pendingOf 10, pendingOf 11, pendingOf 12, pendingOf 13, pendingOf 14, pendingOf 15] =
      [some .serial, some .vblank, some .lcdstat, some .vblank, some .timer, some .vblank, some .lcdstat,
        some .vblank] := by
  constructor <;> rfl

/-- Vector set V, the values 16 to 31. -/
theorem test_pending_table_high :
    [pendingOf 16, pendingOf 17, pendingOf 18, pendingOf 19, pendingOf 20, pendingOf 21, pendingOf 22,
        pendingOf 23] =
      [some .joypad, some .vblank, some .lcdstat, some .vblank, some .timer, some .vblank, some .lcdstat,
        some .vblank] ∧
    [pendingOf 24, pendingOf 25, pendingOf 26, pendingOf 27, pendingOf 28, pendingOf 29, pendingOf 30,
        pendingOf 31] =
      [some .serial, some .vblank, some .lcdstat, some .vblank, some .timer, some .vblank, some .lcdstat,
        some .vblank] := by
  constructor <;> rfl

/-- The masking cases of 2.1: bits 7 to 5 select no kind, and VBlank not enabled leaves LCDSTAT. -/
theorem test_pending_masks :
    ends (exec .pending (serving 0xE0#8 0xFF#8 0#16 0#16)) (fun t => t.reply == .kind none) = true ∧
    ends (exec .pending (serving 0x1E#8 0xFF#8 0#16 0#16)) (fun t => t.reply == .kind (some .lcdstat)) = true := by
  decide

/-- S9: `sp` wraps and the low byte lands on IE. -/
theorem test_service_wraps_onto_ie :
    ends (exec (.service .vblank) (serving 0x01#8 0x01#8 0xABCD#16 0x0001#16)) (fun t =>
      t.pc == 0x0040#16 && t.sp == 0xFFFF#16 && t.memRead 0x0000#16 == 0xAB#8 && t.ieReg == 0xCD#8 &&
      t.ifReg == 0x00#8 && !t.ime) = true := by decide

/-- S11: the push lands on IF after the bit was cleared. -/
theorem test_service_pushes_over_if :
    ends (exec (.service .vblank) (serving 0x01#8 0x01#8 0xAB1F#16 0xFF11#16)) (fun t =>
      t.sp == 0xFF0F#16 && t.memRead 0xFF10#16 == 0xAB#8 && t.ifReg == 0x1F#8) = true := by decide

/-- T10: an overflow, then one more increment from the reloaded value. -/
theorem test_advance_overflow_and_on :
    ends (exec (.advance 32) (timed 0x05#8 0xFF#8 0x05#8 0 0)) (fun t =>
      t.cacc == 0 && t.timaReg == 0x06#8 && t.ifReg == 0x04#8 && t.dacc == 32) = true := by decide

/-- T16: 62 crossings at once after a switch to a smaller threshold. -/
theorem test_advance_many_crossings :
    ends (exec (.advance 4) (timed 0x05#8 0x00#8 0x00#8 0 1000)) (fun t =>
      t.cacc == 12 && t.timaReg == 0x3E#8 && t.dacc == 4) = true := by decide +kernel

/-- S2c: halted, only bits 7 to 5 set: idle. -/
theorem test_step_idles :
    ends (exec .step { serving 0xE0#8 0xE0#8 0x0200#16 0xFFFE#16 with ime := false, halt := true }) (fun t =>
      t.halt && t.pc == 0x0200#16 && t.dacc == 4 && t.reply == .cycles 4) = true := by decide

/-- S12: SERVICE clears the Timer bit and the ADVANCE of the same STEP sets it again. -/
theorem test_step_services_then_timer_requests :
    ends (step (lay [(0xFF07#16, 0x05#8), (0xFF05#16, 0xFF#8), (0xFF06#16, 0x80#8)]
      (serving 0x04#8 0x04#8 0x0300#16 0xD000#16))) (fun t =>
      t.pc == 0x0050#16 && t.sp == 0xCFFE#16 && t.memRead 0xCFFF#16 == 0x03#8 && t.timaReg == 0x80#8 &&
      t.ifReg == 0x04#8 && t.cacc == 4 && t.dacc == 20 && t.reply == .cycles 20) = true := by decide

/-! ### The classes and the fixture -/

/-- S16c: a stale `bt` is cleared before dispatch, and the base cost is charged. -/
theorem test_opPrimary_clears_bt :
    ends (exec (.opPrimary 0x20#8) { base [(0x0101#16, 0x05#8)] with af := 0x0080#16, bt := true }) (fun t =>
      t.pc == 0x0102#16 && !t.bt && t.cyc == 8) = true := by decide

/-- S15, as the class instruction: `bt` is left alone. -/
theorem test_opExtended_leaves_bt :
    ends (exec (.opExtended 0x37#8) { base [] with af := 0xA500#16, bt := true }) (fun t =>
      t.pc == 0x0102#16 && t.af == 0x5A00#16 && t.bt && t.cyc == 8) = true := by decide

/-- S1. -/
theorem test_nop : ends (step (base [])) (fun t =>
    t.pc == 0x0101#16 && t.dacc == 4 && t.reply == .cycles 4) = true := by decide

/-- S17a. -/
theorem test_halt : ends (step (base [(0x0100#16, 0x76#8)])) (fun t =>
    t.pc == 0x0101#16 && t.halt && t.dacc == 4) = true := by decide

/-- P2 step 3. -/
theorem test_ei : ends (step (base [(0x0100#16, 0xFB#8)])) (fun t =>
    t.ime && t.pc == 0x0101#16 && t.reply == .cycles 4) = true := by decide

/-- T0's row of DI. -/
theorem test_di : ends (step { base [(0x0100#16, 0xF3#8)] with ime := true }) (fun t =>
    !t.ime && t.pc == 0x0101#16 && t.reply == .cycles 4) = true := by decide

/-- P1 step 1. -/
theorem test_ldAN : ends (step (base [(0x0100#16, 0x3E#8), (0x0101#16, 0x05#8)])) (fun t =>
    t.pc == 0x0102#16 && t.af == 0x05B0#16 && t.dacc == 8) = true := by decide

/-- P1 step 2: the write to TAC counts in the same STEP. -/
theorem test_ldhNA :
    ends (step { base [(0x0102#16, 0xE0#8), (0x0103#16, 0x07#8)] with
      af := 0x05B0#16, pc := 0x0102#16, dacc := 8 }) (fun t =>
      t.pc == 0x0104#16 && t.tacReg == 0x05#8 && t.cacc == 12 && t.dacc == 20) = true := by decide

/-- P2 step 9. -/
theorem test_decA : ends (exec .decA { base [] with af := 0x04B0#16 }) (fun t =>
    t.af == 0x0350#16 && t.cyc == 4) = true := by decide

/-- P4 step 6: the result is zero. -/
theorem test_decA_zero : ends (exec .decA { base [] with af := 0x01B0#16 }) (fun t =>
    t.af == 0x00D0#16) = true := by decide

/-- P3 step 3: taken, backwards, 12 cycles. -/
theorem test_jrNzE_taken : ends (exec (.jrNzE 0xFD#8) { base [] with af := 0x0250#16, pc := 0x0103#16 }) (fun t =>
    t.pc == 0x0102#16 && t.bt && t.cyc == 12) = true := by decide

/-- P3 step 7: not taken, 8 cycles. -/
theorem test_jrNzE_not_taken :
    ends (exec (.jrNzE 0xFD#8) { base [] with af := 0x00D0#16, pc := 0x0103#16 }) (fun t =>
      t.pc == 0x0105#16 && !t.bt && t.cyc == 8) = true := by decide

/-- P1 step 7. -/
theorem test_jrE : ends (exec (.jrE 0xFA#8) { base [] with pc := 0x0108#16 }) (fun t =>
    t.pc == 0x0104#16 && t.bt && t.cyc == 12) = true := by decide

/-- P2 step 10. -/
theorem test_reti :
    ends (exec .reti { base [(0xFFFD#16, 0x01#8), (0xFFFC#16, 0x06#8)] with pc := 0x0051#16, sp := 0xFFFC#16 })
      (fun t => t.pc == 0x0106#16 && t.sp == 0xFFFE#16 && t.ime && t.cyc == 16) = true := by decide

/-- S14: across the wrap at the top of memory. -/
theorem test_swapA :
    ends (step { base [(0xFFFF#16, 0xCB#8), (0x0000#16, 0x37#8)] with af := 0x1200#16, pc := 0xFFFF#16 }) (fun t =>
      t.pc == 0x0001#16 && t.af == 0x2100#16 && t.dacc == 8) = true := by decide

/-! ### Witnesses: states and operands that meet the hypotheses of each obligation, clause by clause -/

/-- RESET_IME true, RESET_MEM with HALT at 0x0100. -/
theorem witness_PowerOnRegistersAndFirstFetch :
    let s := State.powerOn true [(0x0100, 0x76#8)]
    s.ieReg &&& s.ifReg &&& 0x1F#8 = 0x00#8 ∧
      decode [s.memRead 0x0100#16, s.memRead 0x0101#16] = .ok (.halt, [0x00#8]) := by decide

/-- A canonical RESET_MEM that lists the first and the last address. -/
theorem witness_PowerOnMeetsInvariant :
    Memory.wf [(0, 0x76#8), (65535, 0x1F#8)] = true := by decide

/-- Bits 7 to 5 of IE and IF set, and no other. -/
theorem witness_KindsHaveTheirMasksAndVectors :
    (serving 0xE0#8 0xE0#8 0#16 0#16).ieReg &&& (serving 0xE0#8 0xE0#8 0#16 0#16).ifReg &&& 0x1F#8 = 0x00#8 := by
  decide

/-- The bytes next to ESC on either side, and ESC itself. -/
theorem witness_FirstByteTellsFormat :
    (0xCA#8 : Byte) ≠ Config.esc ∧ (0xCC#8 : Byte) ≠ Config.esc ∧ (0xCB#8 : Byte) = Config.esc := by decide

/-- A well-formed instruction of each format, and of each length of a primary row. -/
theorem witness_DecodeUndoesEncode :
    (Instr.wellFormed (.opPrimary 0xFF#8) = true ∧ encode (.opPrimary 0xFF#8) = some [0xFF#8]) ∧
    (Instr.wellFormed (.opExtended 0xCB#8) = true ∧ encode (.opExtended 0xCB#8) = some [0xCB#8, 0xCB#8]) ∧
    (Instr.wellFormed .reti = true ∧ encode .reti = some [0xD9#8]) ∧
    (Instr.wellFormed (.jrE 0x80#8) = true ∧ encode (.jrE 0x80#8) = some [0x18#8, 0x80#8]) ∧
    (Instr.wellFormed .swapA = true ∧ encode .swapA = some [0xCB#8, 0x37#8]) := by decide

/-- The highest kind, its bit clear and its bit set. -/
theorem witness_RequestSetsItsBit :
    (serving 0x00#8 0x00#8 0#16 0#16).mem.wf = true ∧ (serving 0x00#8 0x10#8 0#16 0#16).mem.wf = true ∧
      (serving 0x00#8 0x10#8 0#16 0#16).ifReg.getLsbD (kindIndex .joypad) = true := by decide

/-- IE without VBlank, every bit of IF set; and `ime` false with everything pending. -/
theorem witness_MaskedKindIsNeverPending :
    (serving 0xFE#8 0xFF#8 0#16 0#16).ieReg.getLsbD (kindIndex .vblank) = false ∧
    (serving 0xFE#8 0xFF#8 0#16 0#16).mem.wf = true ∧
    { serving 0xFF#8 0xFF#8 0#16 0#16 with ime := false }.ime = false := by decide

/-- A stack in plain memory, and one whose push lands on IF, by its low and by its high byte. -/
theorem witness_ServiceEntersHandler :
    let s := serving 0x01#8 0x01#8 0x1234#16 0xD000#16
    s.mem.wf = true ∧ s.sp - 1#16 ≠ 0xFF0F#16 ∧ s.sp - 2#16 ≠ 0xFF0F#16 ∧
      (0xFF11#16 : Word) - 2#16 = 0xFF0F#16 ∧ (0xFF10#16 : Word) - 1#16 = 0xFF0F#16 := by decide

/-- The six stack pointers of the statement, each on a canonical memory, and the SERVICE that completes there. -/
theorem witness_PushMayLandOnRegisters (sp : Word)
    (_ : sp ∈ [0xFF11#16, 0xFF10#16, 0x0001#16, 0x0000#16, 0xFF06#16, 0xFF08#16]) :
    (serving 0x01#8 0x01#8 0xABCD#16 sp).mem.wf = true ∧ (serving 0x01#8 0x01#8 0xABCD#16 sp).sp = sp ∧
      ∃ t, exec (.service .vblank) (serving 0x01#8 0x01#8 0xABCD#16 sp) = .next t :=
  ⟨rfl, rfl, _, rfl⟩

/-- At the stack pointer where both the push and the pop wrap. -/
theorem witness_ReturnUndoesService :
    (serving 0x01#8 0x01#8 0xABCD#16 0x0001#16).mem.wf = true ∧
      ∃ t, exec (.service .vblank) (serving 0x01#8 0x01#8 0xABCD#16 0x0001#16) = .next t :=
  ⟨rfl, _, rfl⟩

/-- The counter disabled, with `TAC[1:0]` at its highest. -/
theorem witness_DividerCountsEvery256Cycles :
    (timed 0x03#8 0xFF#8 0x05#8 255 7).mem.wf = true ∧
      (timed 0x03#8 0xFF#8 0x05#8 255 7).tacReg.getLsbD 2 = false := by decide

/-- The same state disables the counter channel. -/
theorem witness_DisabledCounterDoesNothing :
    (timed 0x03#8 0xFF#8 0x05#8 0 7).mem.wf = true ∧
      (timed 0x03#8 0xFF#8 0x05#8 0 7).tacReg.getLsbD 2 = false := by decide

/-- The four selects of TAC, upper bits set too. -/
theorem witness_EnabledCounterCountsCrossings_select :
    (∀ tac ∈ [0x04#8, 0x05#8, 0x06#8, 0xFF#8], (tac : Byte).getLsbD 2 = true) ∧
    (0x04#8 : Byte) &&& 0x03#8 = 0#8 ∧ (0x05#8 : Byte) &&& 0x03#8 = 1#8 ∧ (0x06#8 : Byte) &&& 0x03#8 = 2#8 ∧
    (0xFF#8 : Byte) &&& 0x03#8 = 3#8 := by decide

/-- Where the two clauses meet: with TIMA 0xFE and threshold 16, one crossing stops at 0xFF, two overflow. -/
theorem witness_EnabledCounterCountsCrossings_clauses :
    let s := timed 0x05#8 0xFE#8 0x80#8 0 0
    s.mem.wf = true ∧ s.tacReg.getLsbD 2 = true ∧ s.timaReg.toNat + (s.cacc + 16) / 16 = 255 ∧
      s.timaReg.toNat + (s.cacc + 32) / 16 = 256 := by decide

/-- Exactly one crossing, at TIMA 0xFF and at TIMA 0xFE. -/
theorem witness_CounterOverflowReloadsAndRequests :
    let s := timed 0x05#8 0xFF#8 0x80#8 0 0
    let u := timed 0x05#8 0xFE#8 0x80#8 0 0
    (s.mem.wf = true ∧ s.tacReg.getLsbD 2 = true ∧ (s.cacc + 31) / tacThreshold s.tacReg = 1 ∧
      s.timaReg = 0xFF#8) ∧
    (u.mem.wf = true ∧ u.tacReg.getLsbD 2 = true ∧ (u.cacc + 16) / tacThreshold u.tacReg = 1 ∧
      u.timaReg ≠ 0xFF#8) := by decide

/-- ADVANCE completes from a canonical memory, with both channels at their edge. -/
theorem witness_AdvanceIsAdditive :
    (timed 0x07#8 0xFF#8 0x80#8 255 255).mem.wf = true ∧
      ∃ t, exec (.advance 20) (timed 0x07#8 0xFF#8 0x80#8 255 255) = .next t :=
  ⟨rfl, _, rfl⟩

/-- Both accumulators one short of their threshold; and the counter disabled with a remainder above it. -/
theorem witness_AdvanceZeroChangesNothing :
    let s := timed 0x05#8 0xFF#8 0x80#8 255 15
    let u := timed 0x01#8 0xFF#8 0x80#8 255 1023
    (s.dacc < 256 ∧ s.tacReg.getLsbD 2 = true ∧ s.cacc < tacThreshold s.tacReg) ∧
    (u.dacc < 256 ∧ u.tacReg.getLsbD 2 = false) := by decide

/-- The counter enabled, with an accumulator above every bound, and disabled. -/
theorem witness_AccumulatorsHoldRemainders :
    (timed 0x05#8 0x00#8 0x00#8 0 5000).tacReg.getLsbD 2 = true ∧
      (timed 0x03#8 0x00#8 0x00#8 0 5000).tacReg.getLsbD 2 = false := by decide

/-- A halted core woken with `ime` false (P4 step 6), and a running one with `ime` true and nothing pending (S7). -/
theorem witness_StepRunsDecodedInstruction :
    let s := { lay [(0x0105#16, 0x3D#8)] (serving 0x01#8 0x01#8 0x0105#16 0xFFFE#16) with ime := false, halt := true }
    let u := serving 0x01#8 0x02#8 0x0100#16 0xFFFE#16
    (s.halt = true ∧ s.ime = false ∧ s.ieReg &&& s.ifReg &&& 0x1F#8 ≠ 0x00#8 ∧
      decode [s.memRead s.pc, s.memRead (s.pc + 1#16)] = .ok (.decA, [0x00#8])) ∧
    (u.halt = false ∧ u.ime = true ∧ u.ieReg &&& u.ifReg &&& 0x1F#8 = 0x00#8 ∧
      decode [u.memRead u.pc, u.memRead (u.pc + 1#16)] = .ok (.nop, [0x00#8])) := by decide

/-- S2c: only bits 7 to 5 of IE and IF are set. -/
theorem witness_HaltedStepIdles :
    let s := { serving 0xE0#8 0xE0#8 0x0200#16 0xFFFE#16 with halt := true }
    s.halt = true ∧ s.ieReg &&& s.ifReg &&& 0x1F#8 = 0x00#8 := by decide

/-- S3 and S4: the same core with `ime` false and true. -/
theorem witness_PendingInterruptWakes :
    let s := { serving 0x04#8 0x04#8 0x0200#16 0xFFFE#16 with halt := true }
    let u := { s with ime := false }
    (s.halt = true ∧ s.ime = true ∧ s.ieReg &&& s.ifReg &&& 0x1F#8 ≠ 0x00#8) ∧
    (u.halt = true ∧ u.ime = false ∧ u.ieReg &&& u.ifReg &&& 0x1F#8 ≠ 0x00#8) := by decide

/-- S6, and the lowest priority alone on a halted core. -/
theorem witness_PendingInterruptIsServiced :
    let s := serving 0x1E#8 0xFF#8 0x1234#16 0xD000#16
    let u := { serving 0x10#8 0x1F#8 0x1234#16 0xD000#16 with halt := true }
    (s.ime = true ∧ s.pendingKind = some .lcdstat) ∧ (u.ime = true ∧ u.pendingKind = some .joypad) := by decide

/-- An opcode of the table and one that the table leaves free, on a running core. -/
theorem witness_StepDispatchesPrimary :
    let s := base []
    let u := base [(0x0100#16, 0xCC#8)]
    (s.halt = false ∧ s.ime = false ∧ s.memRead s.pc ≠ Config.esc) ∧
    (u.halt = false ∧ u.ime = false ∧ u.memRead u.pc ≠ Config.esc) := by decide

/-- ESC at the top of memory (S14), and on a woken core. -/
theorem witness_StepDispatchesExtended :
    let s := { base [(0xFFFF#16, 0xCB#8), (0x0000#16, 0x37#8)] with pc := 0xFFFF#16 }
    let u := { lay [(0x0200#16, 0xCB#8)] (serving 0x04#8 0x04#8 0x0200#16 0xFFFE#16) with ime := false, halt := true }
    (s.halt = false ∧ s.ime = false ∧ s.memRead s.pc = Config.esc) ∧
    (u.halt = true ∧ u.ime = false ∧ u.ieReg &&& u.ifReg &&& 0x1F#8 ≠ 0x00#8 ∧ u.memRead u.pc = Config.esc) := by
  decide

/-- A STEP completes on each path: idle, service, extended, primary. -/
theorem witness_StepReturnsItsOneCost :
    let idle := { serving 0xE0#8 0xE0#8 0x0200#16 0xFFFE#16 with halt := true }
    let serve := serving 0x1F#8 0x10#8 0x1234#16 0xD000#16
    let ext := base [(0x0100#16, 0xCB#8)]
    (idle.halt = true ∧ idle.ieReg &&& idle.ifReg &&& 0x1F#8 = 0x00#8) ∧
    (serve.ime = true ∧ serve.ieReg &&& serve.ifReg &&& 0x1F#8 ≠ 0x00#8) ∧
    (ext.halt = false ∧ ext.ime = false ∧ ext.memRead ext.pc = Config.esc) ∧
    ((base []).halt = false ∧ (base []).ime = false ∧ (base []).memRead (base []).pc ≠ Config.esc) ∧
    ∃ t, step serve = .next t := by
  refine ⟨by decide, by decide, by decide, by decide, _, rfl⟩

/-- The three disjuncts, and a STEP that completes. -/
theorem witness_BranchFlagMovesOnPrimaryPathOnly :
    let idle := { serving 0xE0#8 0xE0#8 0x0200#16 0xFFFE#16 with halt := true, bt := true }
    let serve := serving 0x1F#8 0x10#8 0x1234#16 0xD000#16
    let ext := base [(0x0100#16, 0xCB#8), (0x0101#16, 0x37#8)]
    (idle.halt = true ∧ idle.ieReg &&& idle.ifReg &&& 0x1F#8 = 0x00#8) ∧
    (serve.ime = true ∧ serve.ieReg &&& serve.ifReg &&& 0x1F#8 ≠ 0x00#8) ∧
    ext.memRead ext.pc = Config.esc ∧ ∃ t, step ext = .next t := by
  refine ⟨by decide, by decide, by decide, _, rfl⟩

/-- The lowest-priority kind enabled alone, nothing pending, the core halted. -/
theorem witness_RequestIsServicedByNextStep :
    let s := { serving 0x10#8 0x0F#8 0x1234#16 0xD000#16 with halt := true }
    s.mem.wf = true ∧ s.ime = true ∧ s.ieReg.getLsbD (kindIndex .joypad) = true ∧
      s.ieReg &&& s.ifReg &&& 0x1F#8 = 0x00#8 := by decide

/-- Nothing enabled but bits 7 to 5, everything requested. -/
theorem witness_HaltedWithNothingEnabledNeverWakes :
    let s := { serving 0xE0#8 0xFF#8 0x0200#16 0xFFFE#16 with halt := true }
    s.halt = true ∧ s.ieReg &&& 0x1F#8 = 0x00#8 := by decide

/-- A state with the invariant, both accumulators at their highest, and a STEP from it. -/
theorem witness_StepKeepsInvariant :
    ({ base [(0xFF07#16, 0x04#8)] with dacc := 255, cacc := 1023, af := 0xFFF0#16 }).Inv ∧
      ∃ t, step { base [(0xFF07#16, 0x04#8)] with dacc := 255, cacc := 1023, af := 0xFFF0#16 } = .next t :=
  ⟨⟨by decide, by decide, by decide, by decide⟩, _, rfl⟩

/-- The same state, for a run. -/
theorem witness_RunsCompleteAndKeepInvariant :
    ({ base [(0xFF07#16, 0x04#8)] with dacc := 255, cacc := 1023, af := 0xFFF0#16 }).Inv :=
  ⟨by decide, by decide, by decide, by decide⟩

/-- Tables that are not T0 at any byte: every operation stops the core and moves the flags' high nibble, the costs are
the index. -/
def otherTables : Tables where
  primOp _ v   := ({ unchanged v with halt := true, af := v.af &&& 0xFFF0#16 }, true)
  baseCost _   := 0
  branchCost b := b.toNat
  extOp _ v    := { unchanged v with ime := true, af := v.af &&& 0xFFF0#16 }
  extCost x    := x.toNat

/-- R3: no entry of the tables is fixed. Under these, byte 0x00 halts the core, `ESC 0x37` sets `ime`, and the cost
is theirs. -/
theorem test_tables_are_an_argument :
    ends (stepWith otherTables (base [(0x0100#16, 0x05#8)])) (fun t =>
      t.halt && t.pc == 0x0101#16 && t.reply == .cycles 5) = true ∧
    ends (stepWith otherTables (base [])) (fun t => t.halt && t.reply == .cycles 0) = true ∧
    ends (stepWith otherTables (base [(0x0100#16, 0xCB#8), (0x0101#16, 0x37#8)])) (fun t =>
      t.ime && t.af == 0x01B0#16 && t.reply == .cycles 0x37) = true := by decide

/-- They obey R116. -/
theorem otherTables_keepFlags : KeepsFlags otherTables := by
  have key (w : Word) : flagsClear (w &&& 0xFFF0#16) = true := by
    simp [flagsClear, BitVec.and_assoc]
  exact ⟨fun _ _ _ => key _, fun _ _ _ => key _⟩

/-- A byte that T0 leaves undefined in each table. -/
theorem witness_StepIsStepWithTheTablesInForce :
    (∀ r : Fixture, (0xCB#8 : Byte) ≠ r.byte) ∧ (∀ r : Fixture, (0x01#8 : Byte) ≠ r.byte) ∧
      (0x36#8 : Byte) ≠ swapByte := by
  refine ⟨fun r => ?_, fun r => ?_, by decide⟩ <;> cases r <;> decide

/-- A running core on a byte of T0 and a woken one with `ime` false; both fetch. -/
theorem witness_AnyTablesDispatchPrimary :
    let s := base [(0x0100#16, 0x76#8)]
    let u := { lay [(0x0200#16, 0xFF#8)] (serving 0x04#8 0x04#8 0x0200#16 0xFFFE#16) with ime := false, halt := true }
    (s.halt = false ∧ s.ime = false ∧ s.memRead s.pc ≠ Config.esc) ∧
    (u.halt = true ∧ u.ime = false ∧ u.ieReg &&& u.ifReg &&& 0x1F#8 ≠ 0x00#8 ∧ u.memRead u.pc ≠ Config.esc) := by
  decide

/-- ESC at the top of memory (S14), with `ime` true and nothing pending. -/
theorem witness_AnyTablesDispatchExtended :
    let s := { base [(0xFFFF#16, 0xCB#8), (0x0000#16, 0x37#8)] with pc := 0xFFFF#16, ime := true }
    s.halt = false ∧ s.ime = true ∧ s.ieReg &&& s.ifReg &&& 0x1F#8 = 0x00#8 ∧ s.memRead s.pc = Config.esc := by
  decide

/-- Two tables that differ elsewhere and agree at the fetched index, on the primary and on the extended path; the idle
and the service path. -/
theorem witness_OnlyTheFetchedEntryMatters :
    let U : Tables := { otherTables with baseCost := fun b => if b = 0x00#8 then 0 else 1,
                                         extCost := fun x => if x = 0x37#8 then 0x37 else 1 }
    let s := base []
    let u := base [(0x0100#16, 0xCB#8), (0x0101#16, 0x37#8)]
    let idle := { serving 0xE0#8 0xE0#8 0x0200#16 0xFFFE#16 with halt := true }
    let serve := serving 0x1F#8 0x10#8 0x1234#16 0xD000#16
    (s.memRead s.pc ≠ Config.esc ∧ otherTables.primOp (s.memRead s.pc) = U.primOp (s.memRead s.pc) ∧
      otherTables.baseCost (s.memRead s.pc) = U.baseCost (s.memRead s.pc) ∧
      otherTables.branchCost (s.memRead s.pc) = U.branchCost (s.memRead s.pc)) ∧
    (u.memRead u.pc = Config.esc ∧
      otherTables.extOp (u.memRead (u.pc + 1#16)) = U.extOp (u.memRead (u.pc + 1#16)) ∧
      otherTables.extCost (u.memRead (u.pc + 1#16)) = U.extCost (u.memRead (u.pc + 1#16))) ∧
    (idle.halt = true ∧ idle.ieReg &&& idle.ifReg &&& 0x1F#8 = 0x00#8) ∧
    (serve.ime = true ∧ serve.ieReg &&& serve.ifReg &&& 0x1F#8 ≠ 0x00#8) :=
  ⟨⟨by decide, rfl, by decide, rfl⟩, ⟨by decide, rfl, by decide⟩, by decide, by decide⟩

/-- Tables that obey R116, and a state with the invariant at its bounds. -/
theorem witness_AnyTablesStepKeepsInvariant :
    KeepsFlags otherTables ∧
      ({ base [(0xFF07#16, 0x04#8)] with dacc := 255, cacc := 1023, af := 0xFFF0#16 }).Inv :=
  ⟨otherTables_keepFlags, by decide, by decide, by decide, by decide⟩

/-- The same tables, and a canonical RESET_MEM. -/
theorem witness_AnyTablesRunsFromPowerOnKeepInvariant :
    KeepsFlags otherTables ∧ Memory.wf [(0x0100, 0x76#8)] = true := ⟨otherTables_keepFlags, by decide⟩

/-- A view with every flag set, and a run from power-on. -/
theorem witness_EveryOperationKeepsFlagsNibble :
    { base [] with af := 0xFFF0#16 }.view.af &&& 0x000F#16 = 0#16 ∧
    Memory.wf [(0x0100, 0x76#8)] = true ∧
    ∃ t, runMoves [.request .joypad, .step, .step] (State.powerOn true [(0x0100, 0x76#8)]) = .next t := by
  refine ⟨by decide, by decide, _, rfl⟩

/-- A canonical memory, to store into at the last address of the high page. -/
theorem witness_StoreHighPageResult : (serving 0x1F#8 0x00#8 0#16 0#16).mem.wf = true := by decide

/-- The zero flag clear with every other flag set, and set alone. -/
theorem witness_RelativeJumpResult :
    (lo { base [] with af := 0x0070#16 }.af).getLsbD 7 = false ∧
      (lo { base [] with af := 0x0080#16 }.af).getLsbD 7 = true := by decide

end Sys2Proof.Tests
end

section
/-!
PROOFS. The statements of spec/10_state.md, with the lemmas they need: the bits of the halves of a pair (R11), that
every meaning completes (R80, R138), and the fetching STEP as one decoded instruction (R86, R90).
-/

namespace Sys2Proof.Machine

/-! ### Halves (R11) -/

theorem getLsbD_hi (w : Word) {n : Nat} (h : n < 8) : (hi w).getLsbD n = w.getLsbD (n + 8) := by
  simp [hi, h, Nat.add_comm]

theorem getLsbD_lo (w : Word) {n : Nat} (h : n < 8) : (lo w).getLsbD n = w.getLsbD n := by
  simp [lo, h]

/-- Settles O9: what a write leaves in each half, each half bit by bit, and the pair from its halves. -/
theorem halvesAreIndependent : Obligations.HalvesAreIndependent := fun w v =>
  ⟨hi_setHi w v, lo_setHi w v, hi_setLo w v, lo_setLo w v,
    fun _ h => ⟨getLsbD_hi w h, getLsbD_lo w h⟩, pair_hi_lo w⟩

/-! ### Completion and the fetch path -/

theorem stepWith_completes (T : Tables) (s : State) : ∃ t, stepWith T s = .next t := by
  obtain ⟨-, h⟩ | ⟨_, -, -, h⟩ | ⟨-, -, h⟩ := stepWith_cases T s <;> exact ⟨_, h⟩

/-- Every meaning completes, in every state (R80, R138); of the instructions only `STEP` has more than one path. -/
theorem exec_completes (i : Instr) (s : State) : ∃ t, exec i s = .next t := by
  cases i
  case step => exact stepWith_completes tables s
  all_goals exact ⟨_, rfl⟩

theorem decodeAndRun_of_decode (run : Instr → State → Host.Outcome State Fault Refusal) {s : State} {i : Instr}
    {rest : List Byte} (h : decode s.fetchBytes = .ok (i, rest)) : decodeAndRun run s = run i s := by
  rw [decodeAndRun, h]

/-- The fetching STEP is the instruction decoded at `pc`, then ADVANCE by its cost (R86, R90). -/
theorem step_of_fetch {s t : State} {i : Instr} {rest : List Byte} (hidle : s.idles = false)
    (hkind : s.serviceKind = none) (hdecode : decode s.started.fetchBytes = .ok (i, rest))
    (hexec : exec i s.started = .next t) : step s = .next (finishStep t) := by
  rw [step, engine_of_fetch _ hidle hkind, decodeAndRun_of_decode _ hdecode, hexec, finishRun]

/-! ### Power-on (R31) -/

/-- The power-on state is Running with `cyc` 0, so the start of a STEP changes nothing of it. -/
@[simp] theorem powerOn_started (resetIme : Bool) (resetMem : Memory) :
    (State.powerOn resetIme resetMem).started = State.powerOn resetIme resetMem := rfl

@[simp] theorem powerOn_not_idles (resetIme : Bool) (resetMem : Memory) :
    (State.powerOn resetIme resetMem).idles = false := by
  simp [State.idles]

/-- Settles O1: the power-on state is Running with nothing to service, so its STEP takes the fetch path, with `pc` at
0x0100. -/
theorem powerOnRegistersAndFirstFetch : Obligations.PowerOnRegistersAndFirstFetch := by
  intro resetIme resetMem s
  refine ⟨⟨rfl, rfl, rfl, rfl, rfl, rfl⟩, fun hpending i rest hdecode => ?_⟩
  have hkind : s.serviceKind = none := (serviceKind_eq_none_iff s).2 hpending
  obtain ⟨t, hexec⟩ := exec_completes i s
  exact ⟨t, hexec, step_of_fetch (powerOn_not_idles resetIme resetMem) hkind hdecode hexec⟩

end Sys2Proof.Machine
end

section
/-!
PROOFS. The statements of spec/30_encoding.md, with the lemmas they need: a primary word is the encoding of the
instruction it decodes to (R63), and the kinds stand in the order of their index (R66).
-/

namespace Sys2Proof

/-! ### The format (R63) -/

theorem of_withOperand_eq_ok {f : Byte → Instr} {i : Instr} {rest r : List Byte}
    (h : withOperand f rest = .ok (i, r)) : ∃ n, i = f n ∧ rest = n :: r := by
  cases rest with
  | nil => cases h
  | cons n rest =>
    cases h
    exact ⟨n, rfl, rfl⟩

/-- A primary word is the encoding of what it decodes to, followed by the rest. -/
theorem encode_of_decodePrimary {b : Byte} {i : Instr} {rest r : List Byte}
    (h : decodePrimary b rest = .ok (i, r)) : ∃ n, encode i = some (b :: n) ∧ n ++ r = rest := by
  cases hrow : Fixture.at? b with
  | none =>
    rw [decodePrimary, hrow] at h
    cases h
    exact ⟨[], rfl, rfl⟩
  | some row =>
    obtain rfl := byte_of_fixtureAt hrow
    cases row
    case ldAN | ldhNA | jrNzE | jrE =>
      obtain ⟨n, rfl, rfl⟩ := of_withOperand_eq_ok h
      exact ⟨[n], rfl, rfl⟩
    all_goals
      cases h
      exact ⟨[], rfl, rfl⟩

/-- An encoding that does not begin with ESC belongs to no instruction of the extended format. -/
theorem not_extended_of_encode {b : Byte} {i : Instr} {n : List Byte} (hb : b ≠ Config.esc)
    (h : encode i = some (b :: n)) (x : Byte) : ¬(i = .swapA ∨ i = .opExtended x) := by
  rintro (rfl | rfl) <;> cases h <;> exact hb rfl

/-- Settles O6: behind ESC both rows of the extended format are possible and no other; any other first byte begins the
encoding of the instruction, which the extended format's does not. -/
theorem firstByteTellsFormat : Obligations.FirstByteTellsFormat := by
  refine ⟨fun b c rest => ?_, fun rest => by rw [decode_esc, if_neg swapByte_ne_esc.symm]⟩
  by_cases hb : b = Config.esc
  · subst hb
    exact ⟨_, rest, decode_esc c rest, iff_of_true rfl (ite_eq_or_eq _ _ _), fun h => absurd rfl h⟩
  · obtain ⟨i, r, h⟩ := decodePrimary_total b c rest
    obtain ⟨n, hn, -⟩ := encode_of_decodePrimary h
    exact ⟨i, r, (decode_primary hb _).trans h, iff_of_false hb (not_extended_of_encode hb hn c),
      fun _ => ⟨n, hn⟩⟩

end Sys2Proof

namespace Sys2Proof.Machine

/-! ### Interrupt kinds (R66) -/

/-- The place of a kind in the list of kinds is its index. -/
theorem kindsByPriority_getElem?_eq_some_iff (n : Nat) (k : Kind) :
    kindsByPriority[n]? = some k ↔ kindIndex k = n := by
  constructor
  · intro h
    have hn : n < 5 := (List.getElem?_eq_some_iff.1 h).1
    interval_cases n <;> cases h <;> rfl
  · rintro rfl
    cases k <;> rfl

/-- The kinds have the indices 0 to 4 and no other: the set of kinds is closed. -/
theorem lt_five_iff_exists_kindIndex (n : Nat) : n < 5 ↔ ∃ k : Kind, kindIndex k = n := by
  simp only [← kindsByPriority_getElem?_eq_some_iff, List.getElem?_eq_some_iff]
  exact ⟨fun h => ⟨kindsByPriority[n], h, rfl⟩, fun ⟨_, h, _⟩ => h⟩

theorem kindIndex_injective : Function.Injective kindIndex := by
  intro j k h
  have hj : kindsByPriority[kindIndex k]? = some j := (kindsByPriority_getElem?_eq_some_iff _ j).2 h
  have hk : kindsByPriority[kindIndex k]? = some k := (kindsByPriority_getElem?_eq_some_iff _ k).2 rfl
  exact Option.some.inj (hj.symm.trans hk)

theorem kindMask_eq_shift (k : Kind) : kindMask k = 1#8 <<< kindIndex k := by
  cases k <;> rfl

theorem kindVector_eq_base_add (k : Kind) :
    kindVector k = 0x0040#16 + BitVec.ofNat 16 (8 * kindIndex k) := by
  cases k <;> rfl

/-- Settles O4: mask and vector are functions of the index, the index numbers the kinds one to one from 0 to 4, and
PENDING looks at `IE & IF & 0x1F` only. -/
theorem kindsHaveTheirMasksAndVectors : Obligations.KindsHaveTheirMasksAndVectors :=
  ⟨⟨rfl, rfl, rfl, rfl, rfl⟩, fun k => ⟨kindMask_eq_shift k, kindVector_eq_base_add k⟩,
    lt_five_iff_exists_kindIndex, fun _ _ h => kindIndex_injective h, fun s => (pendingKind_eq_none s).2⟩

end Sys2Proof.Machine
end

section
/-!
PROOFS. The statements of spec/40_step_engine.md, with the lemmas they need: running the decoded instruction is
indexing the tables with the fetched byte (R92), so the machine's step is the command STEP; what STEP does on a core
that does not idle (R82); and when it services (R84).
-/

namespace Sys2Proof.Machine

/-! ### The decoded instruction is the table entry (R92) -/

theorem runPrimary_fixture (r : Fixture) (s : State) :
    runPrimary tables r.byte s = runFixture r (fixtureOp r) s := by
  have hop : tables.primOp r.byte = fixtureOp r := funext (primOp_fixture r)
  have hbase : tables.baseCost r.byte = fixtureBaseCost r := baseCost_fixture r
  have hbranch : tables.branchCost r.byte = fixtureBranchCost r := branchCost_fixture r
  rw [runPrimary, hop, hbase, hbranch, runFixture]

theorem runExtended_swap (s : State) :
    runExtended tables swapByte s = dispatchExtended opSwapA swapCost s := by
  have hop : tables.extOp swapByte = opSwapA := funext extOp_swap
  have hcost : tables.extCost swapByte = swapCost := extCost_swap
  rw [runExtended, hop, hcost]

/-- Behind ESC the decoder tells `SWAP A` from the rest of its class, and both are the entry at the second byte. -/
theorem exec_extended (x : Byte) (s : State) :
    exec (if x = swapByte then .swapA else .opExtended x) s = .next (runExtended tables x s) := by
  split
  next hswap =>
    subst hswap
    rw [runExtended_swap]
    rfl
  next => rfl

/-- A primary word runs as the entry at its byte. A fixture row with an operand was given the byte after the opcode,
which is the byte that its entry reads at `pc` (R114). -/
theorem exec_of_decodePrimary {s : State} {b : Byte} {i : Instr} {r : List Byte}
    (h : decodePrimary b [s.memRead (s.pc + 1#16)] = .ok (i, r)) : exec i s = .next (runPrimary tables b s) := by
  cases hrow : Fixture.at? b with
  | none =>
    rw [decodePrimary, hrow] at h
    cases h
    rfl
  | some row =>
    obtain rfl := byte_of_fixtureAt hrow
    rw [runPrimary_fixture]
    cases row <;> cases h <;> rfl

theorem decodeAndRun_exec (s : State) : decodeAndRun exec s = .next (fetchAndDispatch tables s) := by
  by_cases hesc : s.memRead s.pc = Config.esc
  · have hdecode := decode_esc (s.memRead (s.pc + 1#16)) []
    rw [← hesc] at hdecode
    rw [decodeAndRun_of_decode exec hdecode, exec_extended, fetchAndDispatch_esc tables hesc]
  · obtain ⟨i, r, hdecode⟩ := decodePrimary_total (s.memRead s.pc) (s.memRead (s.pc + 1#16)) []
    rw [decodeAndRun_of_decode exec ((decode_primary hesc _).trans hdecode), exec_of_decodePrimary hdecode,
      fetchAndDispatch_primary tables hesc]

/-- The machine's step is the command STEP: both are the engine around the same fetch path. -/
theorem step_eq_exec_step (s : State) : step s = exec .step s :=
  congrArg (engine · s) (funext decodeAndRun_exec)

/-- Settles O25: STEP completes on each of its paths, and an outcome holds one next state. -/
theorem stepIsEnabledEverywhere : Obligations.StepIsEnabledEverywhere := by
  intro s
  rw [step_eq_exec_step]
  exact ⟨exec_completes .step s, fun _ _ ht hu => Host.Outcome.next.inj (ht.symm.trans hu)⟩

/-! ### The idle path (R83) -/

/-- Settles O29: ADVANCE(4) is all that an idle STEP runs, and ADVANCE moves the accumulators and memory alone. -/
theorem haltedStepIdles : Obligations.HaltedStepIdles := by
  intro s hhalt hnothing
  have hidle : exec .step s = .next (finishStep { s with cyc := 4 }) :=
    stepWith_of_idles tables ((idles_iff s).2 ⟨hhalt, hnothing⟩)
  exact ⟨_, _, rfl, rfl, hidle, (step_eq_exec_step s).trans hidle,
    congrArg (State.answer · (.cycles 4)) (advanceTimer_frame 4 { s with cyc := 4 })⟩

/-! ### Waking (R82) -/

/-- A STEP that does not idle does not see `halt`: both paths begin by clearing it, and neither charges for it. -/
theorem stepWith_clear_halt (T : Tables) {s : State} (h : s.idles = false) :
    stepWith T { s with halt := false } = stepWith T s := by
  have hawake : State.idles { s with halt := false } = false := rfl
  cases hk : s.serviceKind with
  | some k => exact (stepWith_of_service T hawake hk).trans (stepWith_of_service T h hk).symm
  | none => exact (stepWith_of_fetch T hawake hk).trans (stepWith_of_fetch T h hk).symm

/-- Settles O30: with something pending the halted core does not idle, and from there `halt` is not seen. -/
theorem pendingInterruptWakes : Obligations.PendingInterruptWakes := by
  intro s _ hpending
  have hidle : s.idles = false := Bool.eq_false_iff.2 fun h => hpending ((idles_iff s).1 h).2
  have hclear : exec .step { s with halt := false } = exec .step s := stepWith_clear_halt tables hidle
  obtain ⟨t, ht⟩ := exec_completes .step s
  exact ⟨t, ht, hclear.trans ht, (step_eq_exec_step s).trans ht⟩

/-! ### The service path (R84, R85, R143) -/

theorem serviceKind_eq_some_iff (s : State) (k : Kind) :
    s.serviceKind = some k ↔ s.ime = true ∧ s.pendingKind = some k := by
  rw [State.serviceKind]
  cases s.ime <;> simp

/-- The reply that a state still holds makes no difference to an ADVANCE, which writes its own. -/
theorem exec_advance_answer (c : Nat) (s : State) (r : Reply) :
    exec (.advance c) (s.answer r) = exec (.advance c) s := by
  have hanswer : exec (.advance c) (s.answer r) = .next ((advanceTimer c (s.answer r)).answer .nothing) := rfl
  rw [hanswer, advanceTimer_answer]
  rfl

/-- Settles O31: the pending kind is the one serviced, the ADVANCE(20) behind SERVICE does not see SERVICE's own reply,
and it leaves all that the service entry set outside memory. -/
theorem pendingInterruptIsServiced : Obligations.PendingInterruptIsServiced := by
  intro s k hime hpending
  have hkind : s.serviceKind = some k := (serviceKind_eq_some_iff s k).2 ⟨hime, hpending⟩
  have hserve : exec .step s = .next (finishStep { serviceInterrupt k s.started with cyc := 20 }) :=
    stepWith_of_service tables (not_idles_of_serviceKind hkind) hkind
  refine ⟨_, _, _, rfl, exec_advance_answer 20 { serviceInterrupt k s.started with cyc := 20 } (.cycles 20), rfl,
    hserve, (step_eq_exec_step s).trans hserve, ?_⟩
  simp

end Sys2Proof.Machine
end

section
/-!
PROOFS. The statement of spec/41_dispatch_interface.md, with the lemmas it needs: the low nibble of a pair (R13), that
T0's entries obey R116 and so the tables in force do, that STEP keeps the nibble zero under any tables that obey R116,
and that a run keeps what each of its moves keeps (R99, R175).
-/

namespace Sys2Proof.Machine

/-! ### The low nibble of `af` (R13) -/

theorem flagsClear_iff (w : Word) : flagsClear w = true ↔ w &&& 0x000F#16 = 0#16 := beq_iff_eq

/-- The nibble of a pair lies in its low half. -/
theorem flagsClear_pair (h l : Byte) : flagsClear (pair h l) = true ↔ l &&& 0x0F#8 = 0#8 := by
  have hmask : pair h l &&& 0x000F#16 = pair 0#8 (l &&& 0x0F#8) := by
    rw [pair, show 0x000F#16 = 0x00#8 ++ 0x0F#8 by decide, BitVec.and_append, BitVec.and_zero, pair]
  rw [flagsClear_iff, hmask]
  constructor
  · intro hzero
    have hlo := congrArg lo hzero
    rwa [lo_pair] at hlo
  · intro hlow
    rw [hlow]
    rfl

theorem flagsClear_setHi (w : Word) (v : Byte) : flagsClear (setHi w v) = true ↔ flagsClear w = true := by
  conv_rhs => rw [← pair_hi_lo w]
  rw [setHi, flagsClear_pair, flagsClear_pair]

theorem packFlags_low_nibble (z n h c : Bool) : packFlags z n h c &&& 0x0F#8 = 0#8 := by
  revert z n h c
  decide

/-! ### The tables in force obey R116 -/

/-- Of T0's primary entries two write `af`: `LD A,n` keeps the flags byte and `DEC A` packs a new one. -/
theorem fixtureOp_keeps_flags (r : Fixture) {v : View} (h : flagsClear v.af = true) :
    flagsClear (fixtureOp r v).1.af = true := by
  cases r
  case ldAN => exact (flagsClear_setHi v.af (imm v)).2 h
  case decA => exact (flagsClear_pair _ _).2 (packFlags_low_nibble _ _ _ _)
  case jrNzE =>
    rw [fixtureOp, opJrNzE]
    split <;> exact h
  all_goals exact h

theorem flagsClear_opSwapA (v : View) : flagsClear (opSwapA v).af = true :=
  (flagsClear_pair _ _).2 (packFlags_low_nibble _ _ _ _)

theorem withFixture_keepsFlags {T : Tables} (hT : KeepsFlags T) : KeepsFlags (withFixture T) := by
  obtain ⟨hprim, hext⟩ := hT
  constructor
  · intro b v h
    simp only [withFixture]
    split
    next r _ => exact fixtureOp_keeps_flags r h
    next => exact hprim b v h
  · intro x v h
    simp only [withFixture]
    split
    next => exact flagsClear_opSwapA v
    next => exact hext x v h

theorem tables_keepsFlags : KeepsFlags tables := withFixture_keepsFlags (lawful_keepFlags freeTables)

/-! ### STEP and runs -/

theorem finishStep_af (s : State) : (finishStep s).af = s.af := by
  rw [finishStep, answer_af, advanceTimer_af]

/-- Idling, servicing and ADVANCE leave `af`, so only the dispatched entry can touch the nibble. -/
theorem stepWith_keeps_flags {T : Tables} (hT : KeepsFlags T) {s t : State} (h : flagsClear s.af = true)
    (hstep : stepWith T s = .next t) : flagsClear t.af = true := by
  obtain ⟨-, hpath⟩ | ⟨k, -, -, hpath⟩ | ⟨-, -, hpath⟩ := stepWith_cases T s <;>
    obtain rfl := Host.Outcome.next.inj (hpath.symm.trans hstep) <;>
    rw [finishStep_af]
  · exact h
  · exact h
  · exact fetchAndDispatch_keeps_flags hT h

/-- What STEP and every request keep, a run keeps. -/
theorem runBy_keeps {P : State → Prop} {stp : State → Host.Outcome State Fault Refusal}
    (hstep : ∀ s t, P s → stp s = .next t → P t)
    (hrequest : ∀ k s, P s → P ((requestInterrupt k s).answer .nothing)) (ms : List Move) {s t : State}
    (hs : P s) (hrun : runBy stp ms s = .next t) : P t := by
  induction ms generalizing s with
  | nil =>
    cases hrun
    exact hs
  | cons m ms ih =>
    rw [runBy] at hrun
    split at hrun
    next u hact =>
      have hu : P u := by
        cases m with
        | step => exact hstep s u hs hact
        | request k =>
          cases hact
          exact hrequest k s hs
      exact ih hu hrun
    next => cases hrun
    next => cases hrun

theorem runMoves_keeps_flags (ms : List Move) {s t : State} (h : flagsClear s.af = true)
    (hrun : runMoves ms s = .next t) : flagsClear t.af = true := by
  refine runBy_keeps (P := fun u => flagsClear u.af = true) (fun u v hu huv => ?_) (fun _ _ hu => hu) ms h hrun
  rw [step_eq_exec_step] at huv
  exact stepWith_keeps_flags tables_keepsFlags hu huv

/-- Settles O42: the tables in force obey R116, and `af` is 0x01B0 at power-on, with the nibble zero. -/
theorem everyOperationKeepsFlagsNibble : Obligations.EveryOperationKeepsFlagsNibble := by
  obtain ⟨hprim, hext⟩ := tables_keepsFlags
  constructor
  · intro b v h
    rw [← flagsClear_iff] at h
    exact ⟨(flagsClear_iff _).1 (hprim b v h), (flagsClear_iff _).1 (hext b v h)⟩
  · intro ms resetIme resetMem t _ hrun
    have hreset : flagsClear (State.powerOn resetIme resetMem).af = true := by
      rw [powerOn_af]
      decide
    exact (flagsClear_iff _).1 (runMoves_keeps_flags ms hreset hrun)

end Sys2Proof.Machine
end

section
/-!
PROOFS. The statements of spec/60_exceptions.md: a request (R130), the pending test (R132, R133), the vectors (R141),
and the two channels of ADVANCE (R151, R153 to R155), with what any number of crossings does to DIV, TIMA and IF.
-/

namespace Sys2Proof.Machine

/-! ### Requests (R130) -/

/-- A bit that is set is not changed by being set again. -/
theorem or_kindMask_of_set {x : Byte} {k : Kind} (h : x.getLsbD (kindIndex k) = true) : x ||| kindMask k = x := by
  rw [kindMask_eq_shift, ← BitVec.twoPow_eq]
  refine BitVec.eq_of_getLsbD_eq fun i hi => ?_
  rw [BitVec.getLsbD_or, BitVec.getLsbD_twoPow]
  by_cases hik : kindIndex k = i
  · subst hik
    simp [h]
  · simp [hik]

theorem requestInterrupt_mem_of_set {s : State} (hwf : s.mem.wf = true) {k : Kind}
    (hset : s.ifReg.getLsbD (kindIndex k) = true) : (requestInterrupt k s).mem = s.mem := by
  refine mem_eq_of_memRead (requestInterrupt_keeps_wf hwf k) hwf fun a => ?_
  by_cases ha : a = ifAddr
  · subst ha
    exact (requestInterrupt_ifReg hwf k).trans (or_kindMask_of_set hset)
  · exact requestInterrupt_memRead k s ha

/-- Settles O10: REQ_INT is one bus write to IF, which rewrites the byte that stands there if the bit is set. -/
theorem requestSetsItsBit : Obligations.RequestSetsItsBit := by
  intro k s hwf
  refine ⟨_, rfl, ?_, fun a ha => requestInterrupt_memRead k s ha, requestInterrupt_mem_of_set hwf, rfl⟩
  rw [← kindMask_eq_shift]
  exact requestInterrupt_ifReg hwf k

/-! ### The pending test (R132, R133) -/

theorem kindIndex_kindsByPriority {n : Nat} (hn : n < kindsByPriority.length) :
    kindIndex kindsByPriority[n] = n :=
  (kindsByPriority_getElem?_eq_some_iff n _).1 (List.getElem?_eq_getElem hn)

/-- The kinds stand in the list by their index, so the first that is pending has the lowest set bit (R133). -/
theorem pendingKind_eq_some_iff (s : State) (k : Kind) :
    s.pendingKind = some k ↔
      (s.ieReg.getLsbD (kindIndex k) = true ∧ s.ifReg.getLsbD (kindIndex k) = true) ∧
      ∀ j < kindIndex k, ¬(s.ieReg.getLsbD j = true ∧ s.ifReg.getLsbD j = true) := by
  rw [State.pendingKind, List.find?_eq_some_iff_getElem]
  simp only [pendingBits_kind, kindIndex_kindsByPriority, Bool.not_not, Bool.not_eq_true', ← Bool.not_eq_true,
    Bool.and_eq_true]
  refine and_congr_right fun _ => ⟨?_, fun hlower => ?_⟩
  · rintro ⟨n, hn, rfl, hlower⟩
    rwa [kindIndex_kindsByPriority]
  · obtain ⟨hk, hget⟩ := List.getElem?_eq_some_iff.1 ((kindsByPriority_getElem?_eq_some_iff _ k).2 rfl)
    exact ⟨kindIndex k, hk, hget, hlower⟩

/-- Settles O11: PENDING answers `pendingKind`, which reads memory alone. -/
theorem pendingIsLowestSetBit : Obligations.PendingIsLowestSetBit := fun s =>
  ⟨s.pendingKind, rfl, pendingKind_eq_none s, pendingKind_eq_some_iff s, fun _ => rfl⟩

/-! ### The vectors (R141) -/

theorem exec_service_pc (k : Kind) (s : State) : ∃ t, exec (.service k) s = .next t ∧ t.pc = kindVector k :=
  ⟨_, rfl, serviceInterrupt_pc k s⟩

/-- Settles O14: SERVICE loads the vector of its kind, in every state. -/
theorem serviceLoadsFixedVector : Obligations.ServiceLoadsFixedVector := fun s =>
  ⟨exec_service_pc .vblank s, exec_service_pc .lcdstat s, exec_service_pc .timer s, exec_service_pc .serial s,
    exec_service_pc .joypad s⟩

/-! ### The divider channel (R151) -/

/-- DIV after any number of crossings, modulo 256. -/
theorem repeatTimes_incrementDiv_divReg (n : Nat) {s : State} (hwf : s.mem.wf = true) :
    (repeatTimes n incrementDiv s).divReg = s.divReg + BitVec.ofNat 8 n := by
  induction n generalizing s with
  | zero => simp
  | succ n ih =>
    rw [repeatTimes_succ, ih (incrementDiv_keeps_wf hwf), incrementDiv_divReg hwf, BitVec.add_assoc,
      Nat.add_comm n, BitVec.ofNat_add]

theorem advanceTimer_divReg (c : Nat) {s : State} (hwf : s.mem.wf = true) :
    (advanceTimer c s).divReg = s.divReg + BitVec.ofNat 8 ((s.dacc + c) / 256) :=
  (advanceCounter_memRead c (advanceDivider c s) (by decide) (by decide)).trans
    (repeatTimes_incrementDiv_divReg ((s.dacc + c) / 256) (s := { s with dacc := (s.dacc + c) % 256 }) hwf)

theorem advanceTimer_dacc (c : Nat) (s : State) : (advanceTimer c s).dacc = (s.dacc + c) % 256 := by
  rw [advanceTimer, advanceCounter_frame, advanceDivider_frame]

/-! ### What the divider channel leaves (R157) -/

theorem advanceDivider_tacReg (c : Nat) (s : State) : (advanceDivider c s).tacReg = s.tacReg :=
  advanceDivider_memRead c s (by decide)

theorem advanceDivider_ifReg (c : Nat) (s : State) : (advanceDivider c s).ifReg = s.ifReg :=
  advanceDivider_memRead c s (by decide)

theorem advanceDivider_cacc (c : Nat) (s : State) : (advanceDivider c s).cacc = s.cacc := by
  rw [advanceDivider_frame]

/-! ### ADVANCE with the counter disabled (R151, R152) -/

theorem advanceCounter_of_disabled (c : Nat) {s : State} (h : tacEnabled s.tacReg = false) :
    advanceCounter c s = s := by
  simp [advanceCounter, h]

theorem advanceTimer_of_disabled (c : Nat) {s : State} (h : tacEnabled s.tacReg = false) :
    advanceTimer c s = advanceDivider c s :=
  advanceCounter_of_disabled c ((congrArg tacEnabled (advanceDivider_tacReg c s)).trans h)

/-- Settles O17: the counter channel leaves DIV and the divider's accumulator, and with the counter disabled the
divider channel is all of ADVANCE. -/
theorem dividerCountsEvery256Cycles : Obligations.DividerCountsEvery256Cycles := by
  intro c s hwf
  refine ⟨_, rfl, advanceTimer_dacc c s, advanceTimer_divReg c hwf, fun hdisabled => ?_⟩
  rw [advanceTimer_of_disabled c hdisabled]
  exact advanceDivider_ifReg c s

/-! ### The counter channel when enabled (R153 to R155) -/

/-- The select of `TAC[1:0]` has four values, which fix the threshold (R154). -/
theorem eq_tacThreshold_of_selects {tac : Byte} {T : Nat} (h0 : tac &&& 0x03#8 = 0#8 → T = 1024)
    (h1 : tac &&& 0x03#8 = 1#8 → T = 16) (h2 : tac &&& 0x03#8 = 2#8 → T = 64)
    (h3 : tac &&& 0x03#8 = 3#8 → T = 256) : T = tacThreshold tac := by
  have four : ∀ x : Byte,
      x &&& 0x03#8 = 0#8 ∨ x &&& 0x03#8 = 1#8 ∨ x &&& 0x03#8 = 2#8 ∨ x &&& 0x03#8 = 3#8 := by decide
  obtain h | h | h | h := four tac
  · simp [tacThreshold, h, h0 h]
  · simp [tacThreshold, h, h1 h]
  · simp [tacThreshold, h, h2 h]
  · simp [tacThreshold, h, h3 h]

/-- A crossing below 0xFF, with TIMA as a number. -/
theorem incrementTima_of_lt {s : State} (hwf : s.mem.wf = true) (hlt : s.timaReg.toNat < 255) :
    (incrementTima s).timaReg.toNat = s.timaReg.toNat + 1 ∧ (incrementTima s).ifReg = s.ifReg := by
  have hne : s.timaReg ≠ 0xFF#8 := fun h => absurd (congrArg BitVec.toNat h) (Nat.ne_of_lt hlt)
  obtain ⟨htima, hif⟩ := incrementTima_of_no_overflow hwf hne
  refine ⟨?_, hif⟩
  rw [htima]
  bv_omega

/-- A crossing at 0xFF, with TIMA as a number. -/
theorem incrementTima_of_eq {s : State} (hwf : s.mem.wf = true) (heq : s.timaReg.toNat = 255) :
    (incrementTima s).timaReg = s.tmaReg ∧ (incrementTima s).ifReg = s.ifReg ||| 0x04#8 :=
  incrementTima_of_overflow hwf (BitVec.eq_of_toNat_eq heq)

/-- The last of some crossings. -/
theorem repeatTimes_succ_last (n : Nat) (f : State → State) (s : State) :
    repeatTimes (n + 1) f s = f (repeatTimes n f s) :=
  repeatTimes_add n 1 f s

theorem repeatTimes_incrementTima_keeps_wf (n : Nat) {s : State} (hwf : s.mem.wf = true) :
    (repeatTimes n incrementTima s).mem.wf = true :=
  repeatTimes_keeps (P := fun t => t.mem.wf = true) (fun _ => incrementTima_keeps_wf) n hwf

theorem repeatTimes_incrementTima_tmaReg (n : Nat) (s : State) :
    (repeatTimes n incrementTima s).tmaReg = s.tmaReg :=
  repeatTimes_same (g := State.tmaReg) (fun t => incrementTima_memRead t (by decide) (by decide)) n s

/-- Crossings that do not pass 0xFF count up and request nothing. -/
theorem crossings_below_overflow (n : Nat) {s : State} (hwf : s.mem.wf = true) (hn : s.timaReg.toNat + n < 256) :
    (repeatTimes n incrementTima s).timaReg.toNat = s.timaReg.toNat + n ∧
      (repeatTimes n incrementTima s).ifReg = s.ifReg := by
  induction n with
  | zero => exact ⟨rfl, rfl⟩
  | succ n ih =>
    obtain ⟨htima, hif⟩ := ih (by omega)
    obtain ⟨htima', hif'⟩ := incrementTima_of_lt (repeatTimes_incrementTima_keeps_wf n hwf) (by omega)
    rw [repeatTimes_succ_last]
    exact ⟨by omega, hif'.trans hif⟩

/-- Crossings that pass 0xFF: the first that does reloads TIMA from TMA and requests; from there TIMA runs round the
values from TMA to 0xFF, and each further reload requests again. -/
theorem crossings_from_overflow (n : Nat) {s : State} (hwf : s.mem.wf = true) (hn : 256 - s.timaReg.toNat ≤ n) :
    (repeatTimes n incrementTima s).timaReg.toNat =
        s.tmaReg.toNat + (n - (256 - s.timaReg.toNat)) % (256 - s.tmaReg.toNat) ∧
      (repeatTimes n incrementTima s).ifReg = s.ifReg ||| 0x04#8 := by
  have hbyte := s.timaReg.isLt
  have hbyte' := s.tmaReg.isLt
  induction n, hn using Nat.le_induction with
  | base =>
    obtain ⟨htima, hif⟩ := crossings_below_overflow (255 - s.timaReg.toNat) hwf (by omega)
    obtain ⟨htima', hif'⟩ := incrementTima_of_eq (repeatTimes_incrementTima_keeps_wf (255 - s.timaReg.toNat) hwf)
      (by omega)
    rw [show 256 - s.timaReg.toNat = 255 - s.timaReg.toNat + 1 by omega, repeatTimes_succ_last, htima', hif', hif,
      repeatTimes_incrementTima_tmaReg, Nat.sub_self, Nat.zero_mod]
    exact ⟨rfl, rfl⟩
  | succ n hn ih =>
    obtain ⟨htima, hif⟩ := ih
    have hwf' := repeatTimes_incrementTima_keeps_wf n hwf
    rw [repeatTimes_succ_last, Nat.sub_add_comm hn, ← Nat.mod_add_mod]
    have hmod := Nat.mod_lt (n - (256 - s.timaReg.toNat)) (show 0 < 256 - s.tmaReg.toNat by omega)
    generalize (n - (256 - s.timaReg.toNat)) % (256 - s.tmaReg.toNat) = r at htima hmod ⊢
    by_cases htop : r + 1 = 256 - s.tmaReg.toNat
    · obtain ⟨htima', hif'⟩ := incrementTima_of_eq hwf' (by omega)
      rw [htima', hif', hif, repeatTimes_incrementTima_tmaReg, htop, Nat.mod_self, BitVec.or_assoc, BitVec.or_self]
      exact ⟨rfl, rfl⟩
    · obtain ⟨htima', hif'⟩ := incrementTima_of_lt hwf' (by omega)
      rw [Nat.mod_eq_of_lt (by omega)]
      exact ⟨by omega, hif'.trans hif⟩

theorem advanceCounter_of_enabled (c : Nat) {s : State} (h : tacEnabled s.tacReg = true) :
    advanceCounter c s =
      repeatTimes ((s.cacc + c) / tacThreshold s.tacReg) incrementTima
        { s with cacc := (s.cacc + c) % tacThreshold s.tacReg } :=
  if_pos h

/-- Where the crossings of an ADVANCE begin: the divider channel has run (R157) and `cacc` holds its remainder. -/
def crossingStart (c : Nat) (s : State) : State :=
  { advanceDivider c s with cacc := (s.cacc + c) % tacThreshold s.tacReg }

theorem crossingStart_wf (c : Nat) {s : State} (hwf : s.mem.wf = true) : (crossingStart c s).mem.wf = true :=
  advanceDivider_keeps_wf c hwf

theorem crossingStart_timaReg (c : Nat) (s : State) : (crossingStart c s).timaReg = s.timaReg :=
  advanceDivider_memRead c s (by decide)

theorem crossingStart_tmaReg (c : Nat) (s : State) : (crossingStart c s).tmaReg = s.tmaReg :=
  advanceDivider_memRead c s (by decide)

theorem crossingStart_ifReg (c : Nat) (s : State) : (crossingStart c s).ifReg = s.ifReg :=
  advanceDivider_ifReg c s

theorem advanceTimer_of_enabled (c : Nat) {s : State} (h : tacEnabled s.tacReg = true) :
    advanceTimer c s =
      repeatTimes ((s.cacc + c) / tacThreshold s.tacReg) incrementTima (crossingStart c s) := by
  have htac := advanceDivider_tacReg c s
  rw [← htac] at h
  rw [advanceTimer, advanceCounter_of_enabled c h, htac, advanceDivider_cacc, crossingStart]

theorem advanceTimer_cacc_of_enabled (c : Nat) {s : State} (h : tacEnabled s.tacReg = true) :
    (advanceTimer c s).cacc = (s.cacc + c) % tacThreshold s.tacReg := by
  rw [advanceTimer_of_enabled c h]
  exact repeatTimes_same (g := State.cacc) incrementTima_cacc _ _

/-- Settles O19: the threshold is the one in force, the crossings begin with TIMA, TMA and IF as ADVANCE found them,
and their number decides whether they pass 0xFF. -/
theorem enabledCounterCountsCrossings : Obligations.EnabledCounterCountsCrossings := by
  intro c s hwf henabled T h0 h1 h2 h3
  obtain rfl := eq_tacThreshold_of_selects h0 h1 h2 h3
  have hstart := crossingStart_wf c hwf
  refine ⟨_, rfl, advanceTimer_cacc_of_enabled c henabled, ?_⟩
  rw [advanceTimer_of_enabled c henabled, ← crossingStart_timaReg c s, ← crossingStart_tmaReg c s,
    ← crossingStart_ifReg c s]
  exact ⟨crossings_below_overflow _ hstart,
    fun hpast => crossings_from_overflow _ hstart (Nat.sub_le_iff_le_add'.2 hpast)⟩

end Sys2Proof.Machine
end

section
/-!
PROOFS. The invariant (R23, R116): ADVANCE leaves both accumulators inside their bounds, STEP keeps the invariant under any
tables that obey R116, and a run completes when its STEP does.
-/

namespace Sys2Proof.Machine

/-! ### The counter's accumulator after ADVANCE (R23, R152, R153) -/

theorem advanceTimer_cacc (c : Nat) (s : State) :
    (advanceTimer c s).cacc =
      if tacEnabled s.tacReg then (s.cacc + c) % tacThreshold s.tacReg else s.cacc := by
  rw [advanceTimer, advanceCounter_cacc, advanceDivider_tacReg, advanceDivider_cacc]

theorem advanceTimer_keeps_cacc_lt (c : Nat) {s : State} (h : s.cacc < 1024) : (advanceTimer c s).cacc < 1024 := by
  rw [advanceTimer_cacc]
  split
  · exact (Nat.mod_lt _ (tacThreshold_pos _)).trans_le (tacThreshold_le _)
  · exact h

/-! ### The invariant -/

/-- The end of a STEP brings `dacc` inside its bound, whatever it held, and keeps the rest of the invariant. -/
theorem finishStep_inv {s : State} (hwf : s.mem.wf = true) (hcacc : s.cacc < 1024)
    (hflags : flagsClear s.af = true) : (finishStep s).Inv where
  memory := finishStep_keeps_wf hwf
  divider := by
    rw [finishStep, answer_dacc, advanceTimer_dacc]
    exact Nat.mod_lt _ (by decide)
  counter := advanceTimer_keeps_cacc_lt s.cyc hcacc
  flags := by rwa [finishStep_af]

theorem stepWith_keeps_inv {T : Tables} (hT : KeepsFlags T) {s t : State} (h : s.Inv)
    (hstep : stepWith T s = .next t) : t.Inv := by
  obtain ⟨hwf, -, hcacc, hflags⟩ := h
  obtain ⟨-, hpath⟩ | ⟨k, -, -, hpath⟩ | ⟨-, -, hpath⟩ := stepWith_cases T s <;>
    obtain rfl := Host.Outcome.next.inj (hpath.symm.trans hstep)
  · exact finishStep_inv hwf hcacc hflags
  · exact finishStep_inv (serviceInterrupt_keeps_wf (s := s.started) hwf k) hcacc hflags
  · refine finishStep_inv (fetchAndDispatch_keeps_wf T (s := s.started) hwf) ?_
      (fetchAndDispatch_keeps_flags hT (s := s.started) hflags)
    rwa [fetchAndDispatch_cacc]

theorem requestInterrupt_keeps_inv (k : Kind) {s : State} (h : s.Inv) :
    ((requestInterrupt k s).answer .nothing).Inv :=
  ⟨requestInterrupt_keeps_wf h.memory k, h.divider, h.counter, h.flags⟩

/-- Settles O58: STEP completes on each of its paths, and each path keeps the invariant. -/
theorem anyTablesStepKeepsInvariant : Obligations.AnyTablesStepKeepsInvariant := by
  intro T s
  obtain ⟨t, hstep⟩ := stepWith_completes T s
  exact ⟨t, hstep, fun hT h => stepWith_keeps_inv hT h hstep⟩

/-- Settles O40: the machine's step is STEP under the tables in force, which obey R116. -/
theorem stepKeepsInvariant : Obligations.StepKeepsInvariant := by
  intro s t h hstep
  rw [step_eq_exec_step] at hstep
  exact stepWith_keeps_inv tables_keepsFlags h hstep

/-! ### Runs (R99, R175) -/

/-- A request completes, so a run does when its STEP does. -/
theorem runBy_completes {stp : State → Host.Outcome State Fault Refusal} (hstep : ∀ s, ∃ t, stp s = .next t)
    (ms : List Move) (s : State) : ∃ t, runBy stp ms s = .next t := by
  induction ms generalizing s with
  | nil => exact ⟨s, rfl⟩
  | cons m ms ih =>
    have hact : ∃ u, m.actBy stp s = .next u := by
      cases m with
      | step => exact hstep s
      | request k => exact ⟨_, rfl⟩
    obtain ⟨u, hu⟩ := hact
    rw [runBy, hu]
    exact ih u

/-- A run whose STEP completes and keeps the invariant does both. -/
theorem runBy_completes_and_keeps_inv {stp : State → Host.Outcome State Fault Refusal}
    (hcompletes : ∀ s, ∃ t, stp s = .next t) (hkeeps : ∀ s t : State, s.Inv → stp s = .next t → t.Inv)
    (ms : List Move) {s : State} (h : s.Inv) : ∃ t, runBy stp ms s = .next t ∧ t.Inv := by
  obtain ⟨t, hrun⟩ := runBy_completes hcompletes ms s
  exact ⟨t, hrun, runBy_keeps hkeeps (fun k _ hs => requestInterrupt_keeps_inv k hs) ms h hrun⟩

/-- Settles O41: by induction on the run, with STEP and REQ_INT both keeping the invariant. -/
theorem runsCompleteAndKeepInvariant : Obligations.RunsCompleteAndKeepInvariant := fun ms _ h =>
  runBy_completes_and_keeps_inv (fun s => (stepIsEnabledEverywhere s).1) stepKeepsInvariant ms h

theorem powerOn_inv (resetIme : Bool) {resetMem : Memory} (h : resetMem.wf = true) :
    (State.powerOn resetIme resetMem).Inv where
  memory := h
  divider := by simp
  counter := by simp
  flags := by
    rw [powerOn_af]
    decide

/-- Settles O3: the accumulators are 0 and `af` is 0x01B0 at power-on; the empty memory is canonical. -/
theorem powerOnMeetsInvariant : Obligations.PowerOnMeetsInvariant :=
  ⟨powerOn_inv Config.resetIme wf_nil, fun resetIme _ h => powerOn_inv resetIme h⟩

/-- Settles O59: the run starts with the invariant, and STEP keeps it under these tables. -/
theorem anyTablesRunsFromPowerOnKeepInvariant : Obligations.AnyTablesRunsFromPowerOnKeepInvariant :=
  fun T ms resetIme _ hT hmem =>
    runBy_completes_and_keeps_inv (stepWith_completes T) (fun _ _ => stepWith_keeps_inv hT) ms
      (powerOn_inv resetIme hmem)

/-- Settles O2: the power-on state as it is written out, and RESET_IME false with no memory listed in `State.reset`. -/
theorem powerOnRemainingState : Obligations.PowerOnRemainingState :=
  ⟨fun _ _ => ⟨rfl, rfl, rfl, rfl, rfl, rfl, rfl, rfl⟩, rfl⟩

end Sys2Proof.Machine
end

section
/-!
PROOFS. Decoding and encoding (R60 to R68): the decoder reads each row's own encoding back, and what it reads is well
formed.
-/

namespace Sys2Proof

theorem decode_fixture_byte (r : Fixture) (rest : List Byte) :
    decode (r.byte :: rest) = decodePrimary r.byte rest :=
  decode_primary (fixture_byte_ne_esc r) rest

theorem wellFormed_opPrimary_iff (b : Byte) :
    Instr.wellFormed (.opPrimary b) = true ↔ b ≠ Config.esc ∧ Fixture.at? b = none := by
  simp [Instr.wellFormed, notEscape, notFixturePrimary]

theorem wellFormed_opExtended_iff (x : Byte) : Instr.wellFormed (.opExtended x) = true ↔ x ≠ swapByte := by
  simp [Instr.wellFormed, notFixtureExtended]

/-- Settles O7: a class term is well formed only where no narrower row takes its byte, and a row is read at its own
byte. -/
theorem decodeUndoesEncode : Obligations.DecodeUndoesEncode := by
  intro i bs rest hwf hbs
  cases i
  case opPrimary b =>
    obtain ⟨hesc, hrow⟩ := (wellFormed_opPrimary_iff b).1 hwf
    cases hbs
    rw [List.singleton_append, decode_primary hesc, decodePrimary, hrow]
  case opExtended x =>
    cases hbs
    exact (decode_esc x rest).trans (by rw [if_neg ((wellFormed_opExtended_iff x).1 hwf)])
  case swapA =>
    cases hbs
    exact decode_esc swapByte rest
  case step | reqInt | pending | service | advance => cases hbs
  all_goals
    cases hbs
    exact decode_fixture_byte _ _

theorem wellFormed_of_decodePrimary {b : Byte} (hb : b ≠ Config.esc) {i : Instr} {rest r : List Byte}
    (h : decodePrimary b rest = .ok (i, r)) : i.wellFormed = true := by
  cases hrow : Fixture.at? b with
  | none =>
    rw [decodePrimary, hrow] at h
    cases h
    exact (wellFormed_opPrimary_iff b).2 ⟨hb, hrow⟩
  | some row =>
    obtain rfl := byte_of_fixtureAt hrow
    cases row
    case ldAN | ldhNA | jrNzE | jrE =>
      obtain ⟨n, rfl, rfl⟩ := of_withOperand_eq_ok h
      rfl
    all_goals
      cases h
      rfl

/-- Settles O8: two bytes are an extended word behind ESC and else a primary word with its operand, if it has one. -/
theorem everyByteIsDispatched : Obligations.EveryByteIsDispatched := by
  intro b c rest
  by_cases hesc : b = Config.esc
  · subst hesc
    by_cases hswap : c = swapByte
    · subst hswap
      exact ⟨.swapA, _, rest, decode_esc swapByte rest, rfl, rfl, rfl⟩
    · exact ⟨.opExtended c, _, rest, (decode_esc c rest).trans (by rw [if_neg hswap]),
        (wellFormed_opExtended_iff c).2 hswap, rfl, rfl⟩
  · obtain ⟨i, r, h⟩ := decodePrimary_total b c rest
    obtain ⟨n, hencode, hrest⟩ := encode_of_decodePrimary h
    exact ⟨i, b :: n, r, (decode_primary hesc _).trans h, wellFormed_of_decodePrimary hesc h, hencode,
      congrArg (b :: ·) hrest⟩

/-- Settles O5: eight words read by the decoder. -/
theorem specWordsDecode : Obligations.SpecWordsDecode := ⟨rfl, rfl, rfl, rfl, rfl, rfl, rfl, rfl⟩

end Sys2Proof
end

section
/-!
PROOFS. STEP path by path (R83 to R92): the fetch path under any tables, what each path returns and leaves in `bt`, and
what of the state and the tables no STEP observes.
-/

namespace Sys2Proof.Machine

/-! ### Which path a STEP takes, in the spec's terms -/

theorem not_idles_of_pending {s : State} (h : s.halt = true → s.ieReg &&& s.ifReg &&& 0x1F#8 ≠ 0x00#8) :
    s.idles = false :=
  Bool.eq_false_iff.2 fun hidle => h ((idles_iff s).1 hidle).1 ((idles_iff s).1 hidle).2

theorem exists_serviceKind_of_pending {s : State} (hime : s.ime = true)
    (hpending : s.ieReg &&& s.ifReg &&& 0x1F#8 ≠ 0x00#8) : ∃ k, s.serviceKind = some k :=
  Option.ne_none_iff_exists'.1 fun h => hpending ((serviceKind_eq_none_iff s).1 h hime)

theorem stepWith_of_fetch_conditions (T : Tables) {s : State}
    (hawake : s.halt = true → s.ieReg &&& s.ifReg &&& 0x1F#8 ≠ 0x00#8)
    (hnone : s.ime = true → s.ieReg &&& s.ifReg &&& 0x1F#8 = 0x00#8) :
    stepWith T s = .next (finishStep (fetchAndDispatch T s.started)) :=
  stepWith_of_fetch T (not_idles_of_pending hawake) ((serviceKind_eq_none_iff s).2 hnone)

theorem step_eq_stepWith (s : State) : step s = stepWith tables s := step_eq_exec_step s

/-- Settles O27: running the decoded instruction is indexing the tables with the fetched byte. -/
theorem stepIsTheStepCommand : Obligations.StepIsTheStepCommand := step_eq_exec_step

/-- Settles O26: each meaning is a total function of the state. -/
theorem nothingStops : Obligations.NothingStops := exec_completes

/-- Settles O28: the fetching STEP, with ADVANCE by the cost as the command that it is. -/
theorem stepRunsDecodedInstruction : Obligations.StepRunsDecodedInstruction := by
  intro s i rest hawake hnone hdecode
  obtain ⟨t, hexec⟩ := exec_completes i s.started
  exact ⟨t, _, hexec, rfl,
    step_of_fetch (not_idles_of_pending hawake) ((serviceKind_eq_none_iff s).2 hnone) hdecode hexec⟩

/-! ### The fetch path (R86 to R88) -/

theorem stepWith_primary (T : Tables) {s : State}
    (hawake : s.halt = true → s.ieReg &&& s.ifReg &&& 0x1F#8 ≠ 0x00#8)
    (hnone : s.ime = true → s.ieReg &&& s.ifReg &&& 0x1F#8 = 0x00#8) (hesc : s.memRead s.pc ≠ Config.esc) :
    stepWith T s = .next (finishStep (runPrimary T (s.memRead s.pc) s.started)) := by
  rw [stepWith_of_fetch_conditions T hawake hnone, fetchAndDispatch_primary T (s := s.started) hesc]
  rfl

theorem stepWith_extended (T : Tables) {s : State}
    (hawake : s.halt = true → s.ieReg &&& s.ifReg &&& 0x1F#8 ≠ 0x00#8)
    (hnone : s.ime = true → s.ieReg &&& s.ifReg &&& 0x1F#8 = 0x00#8) (hesc : s.memRead s.pc = Config.esc) :
    stepWith T s = .next (finishStep (runExtended T (s.memRead (s.pc + 1#16)) s.started)) := by
  rw [stepWith_of_fetch_conditions T hawake hnone, fetchAndDispatch_esc T (s := s.started) hesc]
  rfl

/-- Settles O32: under the tables in force the entry at the byte is OP_PRIMARY of it. -/
theorem stepDispatchesPrimary : Obligations.StepDispatchesPrimary := by
  intro s hawake hnone hesc
  have hstep := stepWith_primary tables hawake hnone hesc
  exact ⟨_, _, rfl, rfl, hstep, (step_eq_stepWith s).trans hstep⟩

/-- Settles O33: under the tables in force the entry at the second byte is OP_EXTENDED of it. -/
theorem stepDispatchesExtended : Obligations.StepDispatchesExtended := by
  intro s hawake hnone hesc
  have hstep := stepWith_extended tables hawake hnone hesc
  exact ⟨_, _, rfl, rfl, hstep, (step_eq_stepWith s).trans hstep⟩

/-- A primary dispatch with its result written out: the operation sees `pc` past the opcode, and `bt` selects the cost. -/
theorem dispatchPrimary_eq (op : View → Effect × Bool) (base branch : Nat) (s : State) :
    let out := op { s with pc := s.pc + 1#16 }.view
    dispatchPrimary op base branch s = { s with
      af := out.1.af, bc := out.1.bc, de := out.1.de, hl := out.1.hl, sp := out.1.sp, pc := out.1.pc
      ime := out.1.ime, halt := out.1.halt, bt := out.2, mem := s.mem.writeAll out.1.writes
      cyc := s.cyc + (if out.2 then branch else base) } := rfl

theorem fetched_fetched (s : State) : s.fetched.fetched = { s with pc := s.pc + 2#16 } := by
  have hpc : s.pc + 1#16 + 1#16 = s.pc + 2#16 := BitVec.add_assoc _ _ _
  rw [State.fetched, State.fetched, hpc]

/-- An extended dispatch with its result written out: the operation sees `pc` past both bytes. -/
theorem dispatchExtended_eq (op : View → Effect) (cost : Nat) (s : State) :
    let out := op { s with pc := s.pc + 2#16 }.view
    dispatchExtended op cost s = { s with
      af := out.af, bc := out.bc, de := out.de, hl := out.hl, sp := out.sp, pc := out.pc
      ime := out.ime, halt := out.halt, mem := s.mem.writeAll out.writes, cyc := s.cyc + cost } := by
  rw [dispatchExtended, fetched_fetched]
  rfl

/-- Settles O43: the primary class under the tables in force. -/
theorem primaryClassMeaning : Obligations.PrimaryClassMeaning := fun b s =>
  congrArg Host.Outcome.next (dispatchPrimary_eq (primOp b) (baseCost b) (branchCost b) s)

/-- Settles O45: the extended class under the tables in force. -/
theorem extendedClassMeaning : Obligations.ExtendedClassMeaning := fun x s =>
  congrArg Host.Outcome.next (dispatchExtended_eq (extOp x) (extCost x) s)

/-- Settles O44: `bt` is cleared before the operation runs. -/
theorem primaryDispatchIgnoresStaleBranchFlag : Obligations.PrimaryDispatchIgnoresStaleBranchFlag := fun b s x =>
  ⟨_, rfl, congrArg Host.Outcome.next
    (dispatchPrimary_ignores_bt (tables.primOp b) (tables.baseCost b) (tables.branchCost b) s x)⟩

/-- Settles O55: from `cyc` at 0 the counter holds the one cost when ADVANCE runs. -/
theorem anyTablesDispatchPrimary : Obligations.AnyTablesDispatchPrimary := by
  intro T s hawake hnone hesc b out cost
  refine ⟨_, rfl, (stepWith_primary T hawake hnone hesc).trans ?_⟩
  rw [runPrimary, dispatchPrimary_eq, started_cyc, Nat.zero_add]
  rfl

/-- Settles O56: the same with the extended class, which leaves `bt`. -/
theorem anyTablesDispatchExtended : Obligations.AnyTablesDispatchExtended := by
  intro T s hawake hnone hesc x out
  refine ⟨_, rfl, (stepWith_extended T hawake hnone hesc).trans ?_⟩
  rw [runExtended, dispatchExtended_eq, started_cyc, Nat.zero_add]
  rfl

/-! ### What a STEP takes from its tables (R4) -/

theorem fetchAndDispatch_congr_esc {T U : Tables} {s : State} (hesc : s.memRead s.pc = Config.esc)
    (hop : T.extOp (s.memRead (s.pc + 1#16)) = U.extOp (s.memRead (s.pc + 1#16)))
    (hcost : T.extCost (s.memRead (s.pc + 1#16)) = U.extCost (s.memRead (s.pc + 1#16))) :
    fetchAndDispatch T s = fetchAndDispatch U s := by
  rw [fetchAndDispatch_esc T hesc, fetchAndDispatch_esc U hesc, runExtended, runExtended, hop, hcost]

theorem fetchAndDispatch_congr_primary {T U : Tables} {s : State} (hesc : s.memRead s.pc ≠ Config.esc)
    (hop : T.primOp (s.memRead s.pc) = U.primOp (s.memRead s.pc))
    (hbase : T.baseCost (s.memRead s.pc) = U.baseCost (s.memRead s.pc))
    (hbranch : T.branchCost (s.memRead s.pc) = U.branchCost (s.memRead s.pc)) :
    fetchAndDispatch T s = fetchAndDispatch U s := by
  rw [fetchAndDispatch_primary T hesc, fetchAndDispatch_primary U hesc, runPrimary, runPrimary, hop, hbase, hbranch]

/-- The tables come into a STEP through its fetch path alone. -/
theorem stepWith_congr {T U : Tables} {s : State}
    (h : s.idles = false → s.serviceKind = none →
      fetchAndDispatch T s.started = fetchAndDispatch U s.started) : stepWith T s = stepWith U s := by
  obtain ⟨hidle, hT⟩ | ⟨k, hidle, hkind, hT⟩ | ⟨hidle, hkind, hT⟩ := stepWith_cases T s
  · rw [hT, stepWith_of_idles U hidle]
  · rw [hT, stepWith_of_service U hidle hkind]
  · rw [hT, stepWith_of_fetch U hidle hkind, h hidle hkind]

/-- Settles O57: the idle and the service path do not come to the fetch, and the fetch reads the entries at its index. -/
theorem onlyTheFetchedEntryMatters : Obligations.OnlyTheFetchedEntryMatters := by
  intro T U s h
  have hTU : stepWith T s = stepWith U s := by
    refine stepWith_congr fun hidle hkind => ?_
    obtain hidles | ⟨hime, hpending⟩ | ⟨hesc, hop, hcost⟩ | ⟨hesc, hop, hbase, hbranch⟩ := h
    · exact absurd ((idles_iff s).2 hidles) (Bool.eq_false_iff.1 hidle)
    · exact absurd ((serviceKind_eq_none_iff s).1 hkind hime) hpending
    · exact fetchAndDispatch_congr_esc (s := s.started) hesc hop hcost
    · exact fetchAndDispatch_congr_primary (s := s.started) hesc hop hbase hbranch
  obtain ⟨t, ht⟩ := stepWith_completes T s
  exact ⟨t, ht, hTU.symm.trans ht⟩

/-! ### The tables in force outside T0's bytes (log 3) -/

theorem fixtureAt_eq_none {b : Byte} (h : ∀ r : Fixture, b ≠ r.byte) : Fixture.at? b = none :=
  Option.eq_none_iff_forall_ne_some.2 fun r hr => h r (byte_of_fixtureAt hr)

/-- Settles O54: where T0 has no entry, `withFixture` passes the free tables, kept inside R116. -/
theorem stepIsStepWithTheTablesInForce : Obligations.StepIsStepWithTheTablesInForce := by
  refine ⟨fun s => ⟨step_eq_stepWith s, rfl⟩, fun b v h => ?_, fun x v h => ?_⟩
  · simp [primOp, baseCost, branchCost, tables, withFixture, fixtureAt_eq_none h, lawful, freeTables]
  · simp [extOp, extCost, tables, withFixture, h, lawful, freeTables]

/-! ### The end of a STEP: fields it leaves -/

@[simp] theorem finishStep_bc (s : State) : (finishStep s).bc = s.bc := by simp [finishStep]
@[simp] theorem finishStep_de (s : State) : (finishStep s).de = s.de := by simp [finishStep]
@[simp] theorem finishStep_hl (s : State) : (finishStep s).hl = s.hl := by simp [finishStep]
@[simp] theorem finishStep_sp (s : State) : (finishStep s).sp = s.sp := by simp [finishStep]
@[simp] theorem finishStep_pc (s : State) : (finishStep s).pc = s.pc := by simp [finishStep]
@[simp] theorem finishStep_ime (s : State) : (finishStep s).ime = s.ime := by simp [finishStep]
@[simp] theorem finishStep_halt (s : State) : (finishStep s).halt = s.halt := by simp [finishStep]
@[simp] theorem finishStep_bt (s : State) : (finishStep s).bt = s.bt := by simp [finishStep]
@[simp] theorem finishStep_cyc (s : State) : (finishStep s).cyc = s.cyc := by simp [finishStep]
@[simp] theorem finishStep_reply (s : State) : (finishStep s).reply = .cycles s.cyc := by simp [finishStep]

theorem finishStep_ieReg (s : State) : (finishStep s).ieReg = s.ieReg :=
  advanceTimer_memRead s.cyc s (by decide) (by decide) (by decide)

theorem stepWith_reply {T : Tables} {s t : State} (hstep : stepWith T s = .next t) : t.reply = .cycles t.cyc := by
  obtain ⟨-, hpath⟩ | ⟨k, -, -, hpath⟩ | ⟨-, -, hpath⟩ := stepWith_cases T s <;>
    obtain rfl := Host.Outcome.next.inj (hpath.symm.trans hstep) <;>
    rw [finishStep_reply, finishStep_cyc]

/-- Settles O34: each path sets `cyc` to its cost before the end of the STEP, which returns it. -/
theorem stepReturnsItsOneCost : Obligations.StepReturnsItsOneCost := by
  intro s t hstep
  rw [step_eq_stepWith] at hstep
  have ends {u : State} (hpath : stepWith tables s = .next (finishStep u)) : t = finishStep u :=
    Host.Outcome.next.inj (hstep.symm.trans hpath)
  refine ⟨stepWith_reply hstep, fun hidles => ?_, fun ⟨hime, hpending⟩ => ?_,
    fun hawake hnone => ⟨fun hesc => ?_, fun hesc => ?_⟩⟩
  · rw [ends (stepWith_of_idles tables ((idles_iff s).2 hidles)), finishStep_cyc]
  · obtain ⟨k, hkind⟩ := exists_serviceKind_of_pending hime hpending
    rw [ends (stepWith_of_service tables (not_idles_of_serviceKind hkind) hkind), finishStep_cyc]
  · rw [ends (stepWith_extended tables hawake hnone hesc), finishStep_cyc]
    exact Nat.zero_add _
  · rw [ends (stepWith_primary tables hawake hnone hesc), finishStep_cyc, finishStep_bt]
    exact Nat.zero_add _

/-- Settles O35: only `runPrimary` writes `bt`, and with ESC at `pc` the fetch path runs the other class. -/
theorem branchFlagMovesOnPrimaryPathOnly : Obligations.BranchFlagMovesOnPrimaryPathOnly := by
  intro s t hstep hpaths
  rw [step_eq_stepWith] at hstep
  obtain ⟨-, hpath⟩ | ⟨k, -, -, hpath⟩ | ⟨hidle, hkind, hpath⟩ := stepWith_cases tables s <;>
    obtain rfl := Host.Outcome.next.inj (hpath.symm.trans hstep) <;>
    rw [finishStep_bt]
  · exact serviceInterrupt_bt k s.started
  · obtain hidles | ⟨hime, hpending⟩ | hesc := hpaths
    · exact absurd ((idles_iff s).2 hidles) (Bool.eq_false_iff.1 hidle)
    · exact absurd ((serviceKind_eq_none_iff s).1 hkind hime) hpending
    · rw [fetchAndDispatch_esc tables (s := s.started) hesc]
      exact dispatchExtended_bt _ _ _

/-! ### What no STEP observes (R20, R21) -/

theorem finishStep_answer (s : State) (r : Reply) : finishStep (s.answer r) = finishStep s := by
  rw [finishStep, advanceTimer_answer]
  rfl

theorem fetchAndDispatch_answer (T : Tables) (s : State) (r : Reply) :
    fetchAndDispatch T (s.answer r) = (fetchAndDispatch T s).answer r := by
  by_cases hesc : s.memRead s.pc = Config.esc
  · rw [fetchAndDispatch_esc T hesc, fetchAndDispatch_esc T (s := s.answer r) hesc]
    rfl
  · rw [fetchAndDispatch_primary T hesc, fetchAndDispatch_primary T (s := s.answer r) hesc]
    rfl

/-- Every path sets `cyc` before it reads it, and the end of the STEP overwrites `reply`. -/
theorem stepWith_ignores_cyc_reply (T : Tables) (s : State) (n : Nat) (r : Reply) :
    stepWith T { s with cyc := n, reply := r } = stepWith T s := by
  obtain ⟨hidle, hpath⟩ | ⟨k, hidle, hkind, hpath⟩ | ⟨hidle, hkind, hpath⟩ := stepWith_cases T s
  · rw [hpath, stepWith_of_idles T (s := { s with cyc := n, reply := r }) hidle]
    exact congrArg _ (finishStep_answer { s with cyc := 4 } r)
  · rw [hpath, stepWith_of_service T (s := { s with cyc := n, reply := r }) hidle hkind]
    exact congrArg _ (finishStep_answer { serviceInterrupt k s.started with cyc := 20 } r)
  · rw [hpath, stepWith_of_fetch T (s := { s with cyc := n, reply := r }) hidle hkind]
    have hstart : State.started { s with cyc := n, reply := r } = s.started.answer r := rfl
    rw [hstart, fetchAndDispatch_answer, finishStep_answer]

/-- Settles O36: the two STEPs are one. -/
theorem staleCycleCountIsUnobservable : Obligations.StaleCycleCountIsUnobservable := by
  intro s n r
  obtain ⟨t, hstep⟩ := stepWith_completes tables s
  exact ⟨t, (step_eq_stepWith s).trans hstep,
    ((step_eq_stepWith _).trans (stepWith_ignores_cyc_reply tables s n r)).trans hstep⟩

theorem finishStep_setBt (s : State) (b : Bool) :
    finishStep { s with bt := b } = { finishStep s with bt := b } := by
  rw [finishStep, advanceTimer_setBt]
  rfl

/-- On the fetch path a stale `bt` is cleared by the primary class and passed on by the extended one. -/
theorem fetchAndDispatch_setBt (T : Tables) (s : State) (b : Bool) :
    ∃ c, fetchAndDispatch T { s with bt := b } = { fetchAndDispatch T s with bt := c } := by
  by_cases hesc : s.memRead s.pc = Config.esc
  · rw [fetchAndDispatch_esc T hesc, fetchAndDispatch_esc T (s := { s with bt := b }) hesc]
    exact ⟨b, rfl⟩
  · rw [fetchAndDispatch_primary T hesc, fetchAndDispatch_primary T (s := { s with bt := b }) hesc]
    exact ⟨(runPrimary T (s.memRead s.pc) s).bt, rfl⟩

/-- States that differ in `bt` alone take the same path, to states that differ in `bt` at most. -/
theorem stepWith_setBt {T : Tables} {s t : State} (hstep : stepWith T s = .next t) (b : Bool) :
    ∃ c, stepWith T { s with bt := b } = .next { t with bt := c } := by
  obtain ⟨hidle, hpath⟩ | ⟨k, hidle, hkind, hpath⟩ | ⟨hidle, hkind, hpath⟩ := stepWith_cases T s <;>
    obtain rfl := Host.Outcome.next.inj (hpath.symm.trans hstep)
  · rw [stepWith_of_idles T (s := { s with bt := b }) hidle]
    exact ⟨b, congrArg _ (finishStep_setBt { s with cyc := 4 } b)⟩
  · rw [stepWith_of_service T (s := { s with bt := b }) hidle hkind]
    exact ⟨b, congrArg _ (finishStep_setBt { serviceInterrupt k s.started with cyc := 20 } b)⟩
  · rw [stepWith_of_fetch T (s := { s with bt := b }) hidle hkind]
    obtain ⟨c, hc⟩ := fetchAndDispatch_setBt T s.started b
    exact ⟨c, congrArg _ ((congrArg finishStep hc).trans (finishStep_setBt _ c))⟩

/-- Settles O37: the second STEP ends in the first one's state with some `bt`. -/
theorem staleBranchFlagIsUnobservable : Obligations.StaleBranchFlagIsUnobservable := by
  intro s b
  obtain ⟨t, hstep⟩ := stepWith_completes tables s
  obtain ⟨c, hstep'⟩ := stepWith_setBt hstep b
  exact ⟨t, _, (step_eq_stepWith s).trans hstep, (step_eq_stepWith _).trans hstep', rfl⟩

end Sys2Proof.Machine
end

section
/-!
PROOFS. Which kinds can be pending (R134), a request that the next STEP services (R96), and the halted core that never
wakes (R148).
-/

namespace Sys2Proof.Machine

/-! ### A request for an enabled kind (R96, R134) -/

theorem kindIndex_lt (k : Kind) : kindIndex k < 5 := (lt_five_iff_exists_kindIndex _).2 ⟨k, rfl⟩

theorem ifReg_bit_of_request {s : State} (hwf : s.mem.wf = true) (k : Kind) (j : Nat) :
    (requestInterrupt k s).ifReg.getLsbD j = (s.ifReg.getLsbD j || decide (kindIndex k = j)) := by
  rw [requestInterrupt_ifReg hwf, kindMask_eq_shift, ← BitVec.twoPow_eq, BitVec.getLsbD_or, BitVec.getLsbD_twoPow,
    decide_eq_true ((kindIndex_lt k).trans (by decide : 5 < 8)), Bool.true_and]

theorem requestInterrupt_ieReg (k : Kind) (s : State) : (requestInterrupt k s).ieReg = s.ieReg :=
  requestInterrupt_memRead k s (by decide)

/-- With nothing pending before, the requested kind is the only one pending. -/
theorem pendingKind_of_request {s : State} {k : Kind} (hwf : s.mem.wf = true)
    (henabled : s.ieReg.getLsbD (kindIndex k) = true) (hnone : s.ieReg &&& s.ifReg &&& 0x1F#8 = 0x00#8) :
    (requestInterrupt k s).pendingKind = some k := by
  have hk := kindIndex_lt k
  rw [pendingKind_eq_some_iff, requestInterrupt_ieReg, ifReg_bit_of_request hwf k]
  refine ⟨⟨henabled, by simp⟩, fun j hj ⟨hie, hif⟩ => ?_⟩
  have hbit := (masked_eq_zero_iff (s.ieReg &&& s.ifReg)).1 hnone j (by omega)
  rw [ifReg_bit_of_request hwf k, decide_eq_false (Nat.ne_of_gt hj), Bool.or_false] at hif
  simp [hie, hif] at hbit

/-- Settles O38: the request makes its kind the pending one, so the STEP is its service entry and ADVANCE(20), which
leaves the registers. -/
theorem requestIsServicedByNextStep : Obligations.RequestIsServicedByNextStep := by
  intro k s hwf hime henabled hnone
  have hkind : ((requestInterrupt k s).answer .nothing).serviceKind = some k :=
    (serviceKind_eq_some_iff _ k).2 ⟨hime, pendingKind_of_request hwf henabled hnone⟩
  refine ⟨_, _, rfl, (step_eq_stepWith _).trans
    (stepWith_of_service tables (not_idles_of_serviceKind hkind) hkind), ?_⟩
  simp

/-- Settles O12: PENDING and the service attempt take a pending kind only, and that kind's IE bit is set. -/
theorem maskedKindIsNeverPending : Obligations.MaskedKindIsNeverPending := by
  refine ⟨fun k s hmasked => ?_, fun k s hwf => ?_, fun s hime => ?_⟩
  · have hpending : s.pendingKind ≠ some k := fun h => by
      obtain ⟨⟨hie, -⟩, -⟩ := (pendingKind_eq_some_iff s k).1 h
      exact absurd hie (Bool.eq_false_iff.1 hmasked)
    exact ⟨⟨_, rfl, hpending⟩, fun h => hpending ((serviceKind_eq_some_iff s k).1 h).2⟩
  · exact ⟨_, rfl, (ifReg_bit_of_request hwf k _).trans (by simp), requestInterrupt_ieReg k s⟩
  · rw [serviceKind_eq_none_iff, hime]
    exact fun h => absurd h (by decide)

/-! ### A halted core with no kind enabled (R148) -/

theorem idles_of_nothing_enabled {s : State} (hhalt : s.halt = true) (hie : s.ieReg &&& 0x1F#8 = 0x00#8) :
    s.idles = true := by
  refine (idles_iff s).2 ⟨hhalt, ?_⟩
  rw [BitVec.and_assoc, BitVec.and_comm s.ifReg, ← BitVec.and_assoc, hie, BitVec.zero_and]

/-- Settles O39: by induction on the number of STEPs; each idles, and an idle STEP leaves IE and the registers. -/
theorem haltedWithNothingEnabledNeverWakes : Obligations.HaltedWithNothingEnabledNeverWakes := by
  intro n
  induction n with
  | zero => exact fun s hhalt _ => ⟨s, rfl, hhalt, rfl, rfl, rfl, rfl, rfl, rfl, rfl, rfl, rfl⟩
  | succ n ih =>
    intro s hhalt hie
    have hstep : step s = .next (finishStep { s with cyc := 4 }) :=
      (step_eq_stepWith s).trans (stepWith_of_idles tables (idles_of_nothing_enabled hhalt hie))
    have hie' : (finishStep { s with cyc := 4 }).ieReg = s.ieReg := finishStep_ieReg _
    obtain ⟨t, hrun, hfields⟩ :=
      ih (finishStep { s with cyc := 4 }) ((finishStep_halt _).trans hhalt) (by rw [hie', hie])
    refine ⟨t, (run_succ hstep).trans hrun, ?_⟩
    simpa [hie', finishStep_af] using hfields

end Sys2Proof.Machine
end

section
/-!
PROOFS. The fixture table T0 (spec/95_test_vectors.md section 3): each row's result and frame, its flags bit by bit, and
that the rows are entries of the tables in force.
-/

namespace Sys2Proof.Machine

/-! ### The rows with their results written out -/

/-- A row with an operand leaves `pc` past two bytes. -/
theorem pc_past_operand (w : Word) : w + 1#16 + 1#16 = w + 2#16 := BitVec.add_assoc w 1#16 1#16

theorem exec_ldAN_eq (n : Byte) (s : State) :
    exec (.ldAN n) s =
      .next { s with af := setHi s.af n, pc := s.pc + 2#16, bt := false, cyc := s.cyc + 8 } := by
  rw [← pc_past_operand]
  rfl

theorem exec_ldhNA_eq (n : Byte) (s : State) :
    exec (.ldhNA n) s =
      .next { s.memWrite (highPage n) (hi s.af) with pc := s.pc + 2#16, bt := false, cyc := s.cyc + 12 } := by
  rw [← pc_past_operand]
  rfl

theorem exec_decA_eq (s : State) :
    exec .decA s = .next { s with
      af := pair (decResult (hi s.af)) (decFlags (hi s.af) (lo s.af)), pc := s.pc + 1#16, bt := false
      cyc := s.cyc + 4 } := rfl

theorem exec_jrE_eq (e : Byte) (s : State) :
    exec (.jrE e) s =
      .next { s with pc := s.pc + 2#16 + sext16 e, bt := true, cyc := s.cyc + 12 } := by
  rw [← pc_past_operand]
  rfl

/-- What JR NZ does when it is taken is what JR does. -/
theorem opJrNzE_of_clear {v : View} (h : zeroFlag (lo v.af) = false) (e : Byte) : opJrNzE e v = opJrE e v :=
  if_neg (Bool.eq_false_iff.1 h)

theorem opJrNzE_of_set {v : View} (h : zeroFlag (lo v.af) = true) (e : Byte) :
    opJrNzE e v = ({ unchanged v with pc := afterImm v }, false) :=
  if_pos h

theorem exec_jrNzE (e : Byte) (s : State) : exec (.jrNzE e) s = .next (dispatchPrimary (opJrNzE e) 8 12 s) := rfl

theorem exec_jrNzE_taken {s : State} (h : zeroFlag (lo s.af) = false) (e : Byte) :
    exec (.jrNzE e) s = .next { s with pc := s.pc + 2#16 + sext16 e, bt := true, cyc := s.cyc + 12 } := by
  rw [exec_jrNzE, dispatchPrimary_eq, opJrNzE_of_clear (v := State.view { s with pc := s.pc + 1#16 }) h, ← pc_past_operand]
  rfl

theorem exec_jrNzE_not_taken {s : State} (h : zeroFlag (lo s.af) = true) (e : Byte) :
    exec (.jrNzE e) s = .next { s with pc := s.pc + 2#16, bt := false, cyc := s.cyc + 8 } := by
  rw [exec_jrNzE, dispatchPrimary_eq, opJrNzE_of_set (v := State.view { s with pc := s.pc + 1#16 }) h, ← pc_past_operand]
  rfl

theorem exec_reti_eq (s : State) :
    exec .reti s = .next { s with
      pc := popped s.view, sp := afterPop s.view, ime := true, bt := false, cyc := s.cyc + 16 } := rfl

theorem exec_swapA_eq (s : State) :
    exec .swapA s = .next { s with
      af := pair (swapResult (hi s.af)) (swapFlags (hi s.af)), pc := s.pc + 2#16, cyc := s.cyc + 8 } :=
  congrArg Host.Outcome.next (dispatchExtended_eq opSwapA swapCost s)

/-- Settles O47: each control row is one field of the state. -/
theorem controlFixturesResult : Obligations.ControlFixturesResult := fun _ => ⟨rfl, rfl, rfl, rfl⟩

/-- Settles O48: the row writes the high half of `af` alone. -/
theorem loadAccumulatorResult : Obligations.LoadAccumulatorResult := fun n s =>
  ⟨_, exec_ldAN_eq n s, hi_setHi s.af n, lo_setHi s.af n, rfl⟩

theorem highPage_eq_ofNat (n : Byte) : highPage n = BitVec.ofNat 16 (0xFF00 + n.toNat) := by
  rw [highPage, BitVec.ofNat_add, BitVec.ofNat_toNat]

/-- Settles O49: the row is one bus write. -/
theorem storeHighPageResult : Obligations.StoreHighPageResult := by
  intro n s hwf
  rw [← highPage_eq_ofNat]
  exact ⟨_, exec_ldhNA_eq n s, memRead_memWrite_same hwf _ _, fun _ ha => memRead_memWrite_other s _ ha, rfl⟩

/-- Settles O52: the two bytes of the popped word. -/
theorem returnFromInterruptResult : Obligations.ReturnFromInterruptResult := fun s =>
  ⟨_, exec_reti_eq s, lo_pair _ _, hi_pair _ _, rfl⟩

/-! ### Relative jumps -/

/-- Adding the sign-extended displacement is adding it as an integer, modulo 65536. -/
theorem jump_target_eq_ofInt (pc : Word) (e : Byte) :
    pc + 2#16 + sext16 e = BitVec.ofInt 16 (pc.toNat + 2 + e.toInt) := by
  rw [BitVec.ofInt_add, BitVec.ofInt_add, sext16, BitVec.signExtend]
  simp

/-- Settles O51: the zero flag decides whether JR NZ does what JR does. -/
theorem relativeJumpResult : Obligations.RelativeJumpResult := by
  intro e s
  rw [← jump_target_eq_ofInt]
  exact ⟨fun hclear => exec_jrNzE_taken hclear e, fun hset => exec_jrNzE_not_taken hset e,
    exec_jrE_eq e s⟩

/-! ### Flags bit by bit (R14, D22) -/

/-- The four flags at their bits, and nothing below them. -/
theorem packFlags_bits (z n h c : Bool) :
    (packFlags z n h c).getLsbD 7 = z ∧ (packFlags z n h c).getLsbD 6 = n ∧ (packFlags z n h c).getLsbD 5 = h ∧
      (packFlags z n h c).getLsbD 4 = c ∧ ∀ i < 4, (packFlags z n h c).getLsbD i = false := by
  revert z n h c
  decide

theorem decResult_eq_zero_iff (a : Byte) : decResult a = 0x00#8 ↔ a = 0x01#8 := by
  rw [decResult]
  bv_omega

theorem low_nibble_eq_zero_iff (a : Byte) : a &&& 0x0F#8 = 0x00#8 ↔ a.toNat % 16 = 0 := by
  revert a
  decide

/-- Settles O50: `DEC A` packs its four flags anew, keeping carry. -/
theorem decrementAccumulatorResult : Obligations.DecrementAccumulatorResult := by
  intro s
  obtain ⟨hz, hn, hh, hc, hlow⟩ := packFlags_bits (decResult (hi s.af) == 0x00#8) true
    (hi s.af &&& 0x0F#8 == 0x00#8) (carryFlag (lo s.af))
  refine ⟨_, exec_decA_eq s, hi_pair _ _, ?_, ?_, ?_, ?_, ?_, rfl⟩ <;> rw [lo_pair, decFlags]
  · rw [hz, beq_eq_decide, decide_eq_decide, decResult_eq_zero_iff]
  · exact hn
  · rw [hh, beq_eq_decide, decide_eq_decide, low_nibble_eq_zero_iff]
  · exact hc
  · exact hlow

/-- Exchanging the nibbles moves each bit by four. -/
theorem getLsbD_swapResult (a : Byte) {n : Nat} (hn : n < 4) :
    (swapResult a).getLsbD n = a.getLsbD (n + 4) ∧ (swapResult a).getLsbD (n + 4) = a.getLsbD n := by
  rw [swapResult, BitVec.getLsbD_append, BitVec.getLsbD_append]
  simp [hn, Nat.add_comm]

theorem swapResult_eq_zero_iff (a : Byte) : swapResult a = 0x00#8 ↔ a = 0x00#8 := by
  revert a
  decide

/-- Settles O53: `SWAP A` packs zero of the result and three clear flags. -/
theorem swapAccumulatorResult : Obligations.SwapAccumulatorResult := by
  intro s
  obtain ⟨hz, hn, hh, hc, hlow⟩ := packFlags_bits (swapResult (hi s.af) == 0x00#8) false false false
  refine ⟨_, exec_swapA_eq s, fun n hn4 => ?_, ?_, fun n hn7 => ?_, rfl⟩
  · rw [hi_pair]
    exact getLsbD_swapResult (hi s.af) hn4
  · rw [lo_pair, swapFlags, hz, beq_eq_decide, decide_eq_decide, swapResult_eq_zero_iff]
  · rw [lo_pair, swapFlags]
    interval_cases n
    · exact hlow 0 (by decide)
    · exact hlow 1 (by decide)
    · exact hlow 2 (by decide)
    · exact hlow 3 (by decide)
    · exact hc
    · exact hh
    · exact hn

/-! ### The rows are entries of the tables in force (log 2) -/

/-- The class instruction with a row's byte does what the row does. -/
theorem exec_opPrimary_fixture (r : Fixture) (s : State) :
    exec (.opPrimary r.byte) s = .next (runFixture r (fixtureOp r) s) :=
  congrArg Host.Outcome.next (runPrimary_fixture r s)

/-- Settles O46: each row, its operand being the byte that its entry reads at `pc`. -/
theorem fixtureRowsAreTableEntries : Obligations.FixtureRowsAreTableEntries := fun s =>
  ⟨_, _, _, _, _, _, _, _, _, _, _,
    ⟨exec_opPrimary_fixture .nop s, rfl⟩, ⟨exec_opPrimary_fixture .halt s, rfl⟩, ⟨exec_opPrimary_fixture .ei s, rfl⟩,
    ⟨exec_opPrimary_fixture .di s, rfl⟩, ⟨exec_opPrimary_fixture .ldAN s, rfl⟩,
    ⟨exec_opPrimary_fixture .ldhNA s, rfl⟩, ⟨exec_opPrimary_fixture .decA s, rfl⟩,
    ⟨exec_opPrimary_fixture .jrNzE s, rfl⟩, ⟨exec_opPrimary_fixture .jrE s, rfl⟩,
    ⟨exec_opPrimary_fixture .reti s, rfl⟩, ⟨congrArg Host.Outcome.next (runExtended_swap s), rfl⟩⟩

end Sys2Proof.Machine
end

section
/-!
PROOFS. The service entry and its return (R42, R120, R140 to R144), and ADVANCE (R150 to R155): the disabled counter, one
crossing, the frame, and that two ADVANCEs are one by the sum.
-/

namespace Sys2Proof.Machine

/-! ### The service entry (R140, R142, R144) -/

/-- The IF byte after a service entry whose push lands elsewhere. -/
theorem serviceInterrupt_ifReg {s : State} (hwf : s.mem.wf = true) (k : Kind) (h1 : s.sp - 1#16 ≠ ifAddr)
    (h2 : s.sp - 2#16 ≠ ifAddr) : (serviceInterrupt k s).ifReg = s.ifReg &&& ~~~kindMask k := by
  rw [State.ifReg, serviceInterrupt_memRead hwf, if_neg h2.symm, if_neg h1.symm, if_pos rfl]

theorem serviceInterrupt_memRead_low {s : State} (hwf : s.mem.wf = true) (k : Kind) :
    (serviceInterrupt k s).memRead (s.sp - 2#16) = lo s.pc := by
  rw [serviceInterrupt_memRead hwf, if_pos rfl]

theorem serviceInterrupt_memRead_high {s : State} (hwf : s.mem.wf = true) (k : Kind) :
    (serviceInterrupt k s).memRead (s.sp - 1#16) = hi s.pc := by
  rw [serviceInterrupt_memRead hwf, if_neg (sp_sub_one_ne_sub_two _), if_pos rfl]

theorem serviceInterrupt_memRead_other {s : State} (hwf : s.mem.wf = true) (k : Kind) {a : Word} (hif : a ≠ ifAddr)
    (h1 : a ≠ s.sp - 1#16) (h2 : a ≠ s.sp - 2#16) : (serviceInterrupt k s).memRead a = s.memRead a := by
  rw [serviceInterrupt_memRead hwf, if_neg h2, if_neg h1, if_neg hif]

/-- Settles O13: every byte after SERVICE, and the fields that it sets. -/
theorem serviceEntersHandler : Obligations.ServiceEntersHandler := by
  intro k s hwf
  refine ⟨_, rfl, serviceInterrupt_memRead_high hwf k, serviceInterrupt_memRead_low hwf k, fun h1 h2 => ?_,
    fun _ hif h1 h2 => serviceInterrupt_memRead_other hwf k hif h1 h2, rfl⟩
  rw [← kindMask_eq_shift]
  exact serviceInterrupt_ifReg hwf k h1 h2

/-- Settles O15: each stack pointer puts the two pushed bytes at the addresses named. -/
theorem pushMayLandOnRegisters : Obligations.PushMayLandOnRegisters := by
  intro k s t hwf hexec
  obtain rfl := Host.Outcome.next.inj hexec
  have hhigh := serviceInterrupt_memRead_high hwf k
  have hlow := serviceInterrupt_memRead_low hwf k
  refine ⟨?_, ?_, ?_, ?_, ?_, ?_⟩ <;> intro hsp <;> rw [hsp] at hhigh hlow
  · exact hlow
  · exact hhigh
  · exact ⟨hlow, hhigh, congrArg (· - 2#16) hsp⟩
  · exact ⟨hhigh, hlow, congrArg (· - 2#16) hsp⟩
  · exact ⟨hhigh, hlow⟩
  · exact ⟨hhigh, hlow⟩

/-! ### The return (R120) -/

/-- After a service entry the pop finds the interrupted `pc`, also where the push landed on IF. -/
theorem popped_serviceInterrupt {s : State} (hwf : s.mem.wf = true) (k : Kind) :
    popped (serviceInterrupt k s).view = s.pc :=
  popped_push (s := s.memWrite ifAddr (s.ifReg &&& ~~~kindMask k)) (memWrite_keeps_wf hwf _ _) s.pc

theorem afterPop_serviceInterrupt (k : Kind) (s : State) : afterPop (serviceInterrupt k s).view = s.sp :=
  BitVec.sub_add_cancel s.sp 2#16

/-- Settles O16: RETI pops what SERVICE pushed, and writes no memory. -/
theorem returnUndoesService : Obligations.ReturnUndoesService := by
  intro k s t hwf hexec
  obtain rfl := Host.Outcome.next.inj hexec
  refine ⟨_, exec_reti_eq _, popped_serviceInterrupt hwf k, afterPop_serviceInterrupt k s, rfl, ?_⟩
  simp

/-! ### The counter: disabled, and one crossing (R152, R155) -/

/-- Settles O18: ADVANCE is the divider channel alone, which writes DIV alone. -/
theorem disabledCounterDoesNothing : Obligations.DisabledCounterDoesNothing := by
  intro c s _ hdisabled
  have hread {a : Word} (ha : a ≠ divAddr) : (advanceTimer c s).memRead a = s.memRead a := by
    rw [advanceTimer_of_disabled c hdisabled]
    exact advanceDivider_memRead c s ha
  refine ⟨_, rfl, ?_, hread (by decide), hread (by decide), fun _ ha => hread ha⟩
  rw [advanceTimer_of_disabled c hdisabled]
  exact advanceDivider_cacc c s

/-- Settles O20: the one crossing begins with TIMA, TMA and IF as ADVANCE found them. -/
theorem counterOverflowReloadsAndRequests : Obligations.CounterOverflowReloadsAndRequests := by
  intro c s hwf henabled hone
  have hstart := crossingStart_wf c hwf
  have hcross : advanceTimer c s = incrementTima (crossingStart c s) := by
    rw [advanceTimer_of_enabled c henabled, hone, repeatTimes_succ, repeatTimes_zero]
  refine ⟨_, rfl, ?_⟩
  rw [hcross, ← crossingStart_timaReg c s, ← crossingStart_tmaReg c s, ← crossingStart_ifReg c s]
  exact ⟨incrementTima_of_overflow hstart, incrementTima_of_no_overflow hstart⟩

/-! ### The frame and the bounds of ADVANCE (R23, R24, R150) -/

/-- Settles O22: ADVANCE writes the accumulators and, of memory, three registers. -/
theorem advanceFrame : Obligations.AdvanceFrame := fun c s =>
  ⟨_, rfl, congrArg (State.answer · .nothing) (advanceTimer_frame c s),
    fun _ h1 h2 h3 => advanceTimer_memRead c s h1 h2 h3⟩

theorem advanceDivider_zero {s : State} (h : s.dacc < 256) : advanceDivider 0 s = s := by
  simp [advanceDivider, divPeriod, Nat.mod_eq_of_lt h, Nat.div_eq_of_lt h]

theorem advanceCounter_zero {s : State} (h : tacEnabled s.tacReg = true → s.cacc < tacThreshold s.tacReg) :
    advanceCounter 0 s = s := by
  unfold advanceCounter
  split
  next henabled => simp [Nat.mod_eq_of_lt (h henabled), Nat.div_eq_of_lt (h henabled)]
  next => rfl

/-- Settles O23: below its threshold each channel makes no crossing and keeps its accumulator. -/
theorem advanceZeroChangesNothing : Obligations.AdvanceZeroChangesNothing := by
  intro s hdacc hcacc
  have hzero : advanceTimer 0 s = s := by
    rw [advanceTimer, advanceDivider_zero hdacc, advanceCounter_zero hcacc]
  exact congrArg (fun t => Host.Outcome.next (t.answer .nothing)) hzero

/-- Settles O24: an accumulator after its channel ran is a remainder of that channel's threshold. -/
theorem accumulatorsHoldRemainders : Obligations.AccumulatorsHoldRemainders := by
  intro c s
  refine ⟨_, rfl, ?_, fun henabled => ?_, fun hdisabled => ?_⟩
  · rw [answer_dacc, advanceTimer_dacc]
    exact Nat.mod_lt _ (by decide)
  · have hlt : (advanceTimer c s).cacc < tacThreshold s.tacReg := by
      rw [advanceTimer_cacc_of_enabled c henabled]
      exact Nat.mod_lt _ (tacThreshold_pos _)
    exact ⟨hlt, hlt.trans_le (tacThreshold_le _)⟩
  · rw [answer_cacc, advanceTimer_of_disabled c hdisabled]
    exact advanceDivider_cacc c s

/-! ### Crossings of the two channels commute (R157) -/

/-- Bus writes to two addresses may change places. -/
theorem memWrite_comm {s : State} (hwf : s.mem.wf = true) {a b : Word} (hab : a ≠ b) (v w : Byte) :
    (s.memWrite a v).memWrite b w = (s.memWrite b w).memWrite a v := by
  have hmem : ((s.memWrite a v).memWrite b w).mem = ((s.memWrite b w).memWrite a v).mem := by
    have hwa := memWrite_keeps_wf hwf a v
    have hwb := memWrite_keeps_wf hwf b w
    refine mem_eq_of_memRead (memWrite_keeps_wf hwa b w) (memWrite_keeps_wf hwb a v) fun x => ?_
    by_cases hxa : x = a
    · subst hxa
      rw [memRead_memWrite_other _ _ hab, memRead_memWrite_same hwf, memRead_memWrite_same hwb]
    · rw [memRead_memWrite_other (s.memWrite b w) v hxa]
      by_cases hxb : x = b
      · subst hxb
        rw [memRead_memWrite_same hwa, memRead_memWrite_same hwf]
      · rw [memRead_memWrite_other _ _ hxb, memRead_memWrite_other _ _ hxa, memRead_memWrite_other _ _ hxb]
  exact congrArg (fun m => { s with mem := m }) hmem

/-- A divider crossing passes over any write that is not to DIV. -/
theorem incrementDiv_memWrite {s : State} (hwf : s.mem.wf = true) {a : Word} (ha : a ≠ divAddr) (v : Byte) :
    incrementDiv (s.memWrite a v) = (incrementDiv s).memWrite a v := by
  have hdiv : (s.memWrite a v).divReg = s.divReg := memRead_memWrite_other s v ha.symm
  rw [incrementDiv, hdiv, memWrite_comm hwf ha, incrementDiv]

theorem incrementDiv_requestInterrupt {s : State} (hwf : s.mem.wf = true) (k : Kind) :
    incrementDiv (requestInterrupt k s) = requestInterrupt k (incrementDiv s) := by
  have hif : (incrementDiv s).ifReg = s.ifReg := incrementDiv_memRead s (by decide)
  rw [requestInterrupt, incrementDiv_memWrite hwf (by decide), requestInterrupt, hif]

theorem incrementDiv_incrementTima {s : State} (hwf : s.mem.wf = true) :
    incrementDiv (incrementTima s) = incrementTima (incrementDiv s) := by
  have htima : (incrementDiv s).timaReg = s.timaReg := incrementDiv_memRead s (by decide)
  have htma : (incrementDiv s).tmaReg = s.tmaReg := incrementDiv_memRead s (by decide)
  have hwrite (v : Byte) : incrementDiv (s.memWrite timaAddr v) = (incrementDiv s).memWrite timaAddr v :=
    incrementDiv_memWrite hwf (by decide) v
  rw [incrementTima, incrementTima, htima, htma]
  split
  · rw [incrementDiv_requestInterrupt (memWrite_keeps_wf hwf _ _), hwrite]
  · exact hwrite _

theorem repeatTimes_incrementTima_incrementDiv (n : Nat) {s : State} (hwf : s.mem.wf = true) :
    repeatTimes n incrementTima (incrementDiv s) = incrementDiv (repeatTimes n incrementTima s) :=
  repeatTimes_comm (P := fun u => u.mem.wf = true) (fun _ => incrementTima_keeps_wf)
    (fun _ hu => (incrementDiv_incrementTima hu).symm) n hwf

/-! ### The accumulators beside the crossings -/

/-- The state with another `dacc`: where a run of the divider channel begins its crossings. -/
def State.withDacc (d : Nat) (s : State) : State := { s with dacc := d }

/-- The state with another `cacc`: where a run of the counter channel begins its crossings. -/
def State.withCacc (d : Nat) (s : State) : State := { s with cacc := d }

theorem advanceDivider_eq (c : Nat) (s : State) :
    advanceDivider c s =
      repeatTimes ((s.dacc + c) / divPeriod) incrementDiv (s.withDacc ((s.dacc + c) % divPeriod)) := rfl

theorem advanceCounter_eq_of_enabled (c : Nat) {s : State} (h : tacEnabled s.tacReg = true) :
    advanceCounter c s =
      repeatTimes ((s.cacc + c) / tacThreshold s.tacReg) incrementTima
        (s.withCacc ((s.cacc + c) % tacThreshold s.tacReg)) :=
  advanceCounter_of_enabled c h

theorem incrementDiv_withDacc (d : Nat) (s : State) :
    incrementDiv (s.withDacc d) = (incrementDiv s).withDacc d := rfl

theorem incrementDiv_withCacc (d : Nat) (s : State) :
    incrementDiv (s.withCacc d) = (incrementDiv s).withCacc d := rfl

theorem incrementTima_withDacc (d : Nat) (s : State) :
    incrementTima (s.withDacc d) = (incrementTima s).withDacc d := by
  rw [incrementTima, incrementTima, apply_ite (State.withDacc d)]
  rfl

theorem incrementTima_withCacc (d : Nat) (s : State) :
    incrementTima (s.withCacc d) = (incrementTima s).withCacc d := by
  rw [incrementTima, incrementTima, apply_ite (State.withCacc d)]
  rfl

/-- Crossings that pass over an accumulator's change do so any number of times. -/
theorem repeatTimes_set {f : State → State} {set : Nat → State → State} (hcomm : ∀ d s, f (set d s) = set d (f s))
    (n d : Nat) (s : State) : repeatTimes n f (set d s) = set d (repeatTimes n f s) :=
  repeatTimes_comm (P := fun _ => True) (fun _ _ => trivial) (fun u _ => hcomm d u) n trivial

/-! ### The two channels commute (R157) -/

/-- A divider crossing passes over the whole counter channel. -/
theorem incrementDiv_advanceCounter (c : Nat) {s : State} (hwf : s.mem.wf = true) :
    incrementDiv (advanceCounter c s) = advanceCounter c (incrementDiv s) := by
  have htac : (incrementDiv s).tacReg = s.tacReg := incrementDiv_memRead s (by decide)
  cases henabled : tacEnabled s.tacReg with
  | true =>
    rw [advanceCounter_eq_of_enabled c henabled, advanceCounter_eq_of_enabled c (by rwa [htac]), htac,
      incrementDiv_cacc, ← incrementDiv_withCacc]
    have hstart (d : Nat) : (s.withCacc d).mem.wf = true := hwf
    exact (repeatTimes_incrementTima_incrementDiv _ (hstart _)).symm
  | false =>
    rw [advanceCounter_of_disabled c henabled, advanceCounter_of_disabled c (by rwa [htac])]

theorem advanceCounter_withDacc (c d : Nat) (s : State) :
    advanceCounter c (s.withDacc d) = (advanceCounter c s).withDacc d := by
  cases henabled : tacEnabled s.tacReg with
  | true =>
    rw [advanceCounter_eq_of_enabled c henabled, advanceCounter_eq_of_enabled c (s := s.withDacc d) henabled,
      ← repeatTimes_set incrementTima_withDacc]
    rfl
  | false =>
    rw [advanceCounter_of_disabled c henabled, advanceCounter_of_disabled c (s := s.withDacc d) henabled]

theorem advanceCounter_dacc (c : Nat) (s : State) : (advanceCounter c s).dacc = s.dacc := by
  rw [advanceCounter_frame]

theorem advanceDivider_advanceCounter (b c : Nat) {s : State} (hwf : s.mem.wf = true) :
    advanceDivider b (advanceCounter c s) = advanceCounter c (advanceDivider b s) := by
  rw [advanceDivider_eq, advanceDivider_eq, advanceCounter_dacc, ← advanceCounter_withDacc]
  have hstart (d : Nat) : (s.withDacc d).mem.wf = true := hwf
  exact repeatTimes_comm (g := advanceCounter c) (P := fun u => u.mem.wf = true) (fun _ => incrementDiv_keeps_wf)
    (fun _ hu => incrementDiv_advanceCounter c hu) _ (hstart _)

/-! ### Two ADVANCEs are one (R151, R153) -/

/-- No crossing is lost or counted twice when a remainder is carried. -/
theorem crossings_add (n b : Nat) {period : Nat} (hpos : 0 < period) :
    n / period + (n % period + b) / period = (n + b) / period := by
  conv_rhs => rw [← Nat.div_add_mod n period, Nat.add_assoc, Nat.mul_add_div hpos]

/-- A channel run twice: the crossings `f` of the first run, then the accumulator set by `set` to the second remainder,
then the crossings of the second run. -/
theorem repeatTimes_carry {f : State → State} {set : Nat → State → State} (hcomm : ∀ d s, f (set d s) = set d (f s))
    (hset : ∀ d e s, set d (set e s) = set d s) {period : Nat} (hpos : 0 < period) (n b : Nat) (s : State) :
    repeatTimes ((n % period + b) / period) f
        (set ((n % period + b) % period) (repeatTimes (n / period) f (set (n % period) s))) =
      repeatTimes ((n + b) / period) f (set ((n + b) % period) s) := by
  rw [← repeatTimes_set hcomm, hset, ← repeatTimes_add, crossings_add n b hpos, Nat.mod_add_mod]

theorem advanceDivider_dacc (c : Nat) (s : State) : (advanceDivider c s).dacc = (s.dacc + c) % divPeriod := by
  rw [advanceDivider_frame]
  rfl

theorem advanceDivider_add (a b : Nat) (s : State) :
    advanceDivider b (advanceDivider a s) = advanceDivider (a + b) s := by
  rw [advanceDivider_eq b, advanceDivider_dacc, advanceDivider_eq a, advanceDivider_eq (a + b), ← Nat.add_assoc]
  exact repeatTimes_carry incrementDiv_withDacc (fun _ _ _ => rfl) (by decide) _ _ _

theorem advanceCounter_tacReg (c : Nat) (s : State) : (advanceCounter c s).tacReg = s.tacReg :=
  advanceCounter_memRead c s (by decide) (by decide)

theorem advanceCounter_add (a b : Nat) (s : State) :
    advanceCounter b (advanceCounter a s) = advanceCounter (a + b) s := by
  have htac := advanceCounter_tacReg a s
  cases henabled : tacEnabled s.tacReg with
  | true =>
    rw [advanceCounter_eq_of_enabled b (by rwa [htac]), htac, advanceCounter_cacc, if_pos henabled,
      advanceCounter_eq_of_enabled a henabled, advanceCounter_eq_of_enabled (a + b) henabled, ← Nat.add_assoc]
    exact repeatTimes_carry incrementTima_withCacc (fun _ _ _ => rfl) (tacThreshold_pos _) _ _ _
  | false =>
    rw [advanceCounter_of_disabled b (by rwa [htac]), advanceCounter_of_disabled a henabled,
      advanceCounter_of_disabled (a + b) henabled]

theorem advanceTimer_add (a b : Nat) {s : State} (hwf : s.mem.wf = true) :
    advanceTimer b (advanceTimer a s) = advanceTimer (a + b) s := by
  calc advanceCounter b (advanceDivider b (advanceCounter a (advanceDivider a s)))
      = advanceCounter b (advanceCounter a (advanceDivider b (advanceDivider a s))) := by
        rw [advanceDivider_advanceCounter b a (advanceDivider_keeps_wf a hwf)]
    _ = advanceCounter (a + b) (advanceDivider (a + b) s) := by rw [advanceCounter_add, advanceDivider_add]

/-- Settles O21: the channels commute, each carries its remainder, and the reply between the two is overwritten. -/
theorem advanceIsAdditive : Obligations.AdvanceIsAdditive := by
  intro a b s t hwf hexec
  obtain rfl := Host.Outcome.next.inj hexec
  have hanswer : exec (.advance b) (advanceTimer a s) = exec (.advance (a + b)) s :=
    congrArg (fun u : State => Host.Outcome.next (u.answer .nothing)) (advanceTimer_add a b hwf)
  exact (exec_advance_answer b (advanceTimer a s) .nothing).trans hanswer

end Sys2Proof.Machine
end
